-- ==== Sys2Proof/Word.lean ====
section
/-! DEFINITION. The bit-vector types of the block, each at the width the spec gives it (00_scope.md R6, R9;
10_state.md section 1). Every quantity is unsigned (R13). -/

namespace Sys2Proof

/-- 16 bits: a command word, an encoded row, the data of a window read (R9, R90, R100, R36). -/
abbrev Word := BitVec 16

/-- 8 bits: the data byte of an output beat (R9, R104). -/
abbrev Byte := BitVec 8

/-- 2 bits: a pixel's colour index (R6, R101). -/
abbrev Pixel := BitVec 2

/-- 6 bits: a grid dimension in tiles, as START carries it and TW and TH hold it (R92, R24). -/
abbrev Dim := BitVec 6

/-- IDXW = 10 bits: a tile index or an index-map entry (R9). -/
abbrev TileIdx := BitVec 10

/-- CNTW = 11 bits: a tile count in 0..1024 (R9). -/
abbrev TileCnt := BitVec 11

/-- 5 bits: an address of the 32-word register window (R36). -/
abbrev WinAddr := BitVec 5

end Sys2Proof
end

