-- ==== Sys2Proof/Syntax.lean ====
section
/-! DEFINITION. The seven commands of I2GB-TE command set version 1 (30_encoding.md R96), one constructor per
row of spec/opcode_table.json, and the source lines an assembler takes (R107, R109). -/

namespace Sys2Proof

/-- A decoded command. Each operand has exactly the width of its field (R92 to R95), so every term is a command some word
encodes: there is no ill-formed `Instr`. -/
inductive Instr where
  /-- NOP (R120). -/
  | nop
  /-- START th, tw: tileHeight and tileWidth (R123). -/
  | start (th tw : Dim)
  /-- PIX v: one pixel (R141). -/
  | pix (v : Pixel)
  /-- REDUCE (R165). -/
  | reduce
  /-- EMITT (R192). -/
  | emitt
  /-- EMITM (R195). -/
  | emitm
  /-- SEL t: a tile index (R127). -/
  | sel (t : TileIdx)
  deriving DecidableEq, Repr

/-- One source line (R107) or pseudo-instruction (R109), its operands as the numbers that were written: they may be out of
range, which `Source.wf` refuses. -/
inductive Source where
  | nop
  | start (th tw : Nat)
  | pix (v : Nat)
  | reduce
  | emitt
  | emitm
  | sel (t : Nat)
  /-- `.word 0xNNNN`: a raw word. -/
  | raw (w : Nat)
  /-- `ROW8 v0, ..., v7`. -/
  | row8 (vs : List Nat)
  /-- `TILE v0, ..., v63`. -/
  | tile (vs : List Nat)
  /-- `FILL v, n`. -/
  | fill (v n : Nat)
  /-- `EXPORT`. -/
  | exportAll
  deriving DecidableEq, Repr

end Sys2Proof
end

