-- ==== Sys2Proof/Decode.lean ====
section
/-! DEFINITION. Decoding, a total function of the 16-bit word (30_encoding.md R105), the encoder, and the opcode map as a
table of match and mask (R96). -/

namespace Sys2Proof

/-- Why a word decodes to no command: the three shapes of an ILLEGAL word (R97, R98). -/
inductive DecodeError where
  /-- The opcode is one of the reserved 0x7 to 0xF (R97). -/
  | reservedOpcode (op : BitVec 4)
  /-- A format Z word with a non-zero operand field (R98). -/
  | operandNotZero (op : BitVec 4) (opd : BitVec 12)
  /-- A format T word with bit 11 or bit 10 set (R98). -/
  | selHighBits (opd : BitVec 12)
  deriving DecidableEq, Repr

/-- Bits 15:12 of the command word (R90). -/
def opcodeField (w : Word) : BitVec 4 := w.extractLsb' 12 4

/-- Bits 11:0 of the command word (R90). -/
def operandField (w : Word) : BitVec 12 := w.extractLsb' 0 12

/-- `th = opd[11:6]` (R92). -/
def thField (opd : BitVec 12) : Dim := opd.extractLsb' 6 6

/-- `tw = opd[5:0]` (R92). -/
def twField (opd : BitVec 12) : Dim := opd.extractLsb' 0 6

/-- `v = opd[1:0]`; bits 11:2 are ignored (R93). -/
def pixelField (opd : BitVec 12) : Pixel := opd.extractLsb' 0 2

/-- `t = opd[9:0]` (R94). -/
def tileField (opd : BitVec 12) : TileIdx := opd.extractLsb' 0 10

/-- The command an opcode of format Z names (R91, R96). -/
def formatZ (op : BitVec 4) : Option Instr :=
  if op = 0x0#4 then some .nop
  else if op = 0x3#4 then some .reduce
  else if op = 0x4#4 then some .emitt
  else if op = 0x5#4 then some .emitm
  else none

/-- R105, in its order: START, PIX, SEL, the four of format Z; every other word is ILLEGAL. -/
def decode (w : Word) : Except DecodeError Instr :=
  let op := opcodeField w
  let opd := operandField w
  if op = 0x1#4 then .ok (.start (thField opd) (twField opd))
  else if op = 0x2#4 then .ok (.pix (pixelField opd))
  else if op = 0x6#4 then
    if opd.extractLsb' 10 2 = 0#2 then .ok (.sel (tileField opd)) else .error (.selHighBits opd)
  else
    match formatZ op with
    | some i => if opd = 0#12 then .ok i else .error (.operandNotZero op opd)
    | none => .error (.reservedOpcode op)

/-- The word an assembler produces (R96): `0x1000 | th << 6 | tw`, `0x2000 | v`, `0x6000 | t`, and the format Z words. -/
def encode : Instr → Word
  | .nop => 0x0000#16
  | .start th tw => 0x1000#16 ||| (th.setWidth 16 <<< 6) ||| tw.setWidth 16
  | .pix v => 0x2000#16 ||| v.setWidth 16
  | .reduce => 0x3000#16
  | .emitt => 0x4000#16
  | .emitm => 0x5000#16
  | .sel t => 0x6000#16 ||| t.setWidth 16

/-- A row of the opcode map (R96): a word `w` selects it when `(w & mask) = match`. -/
structure TableRow where
  mnemonic : String
  pattern : Word
  mask : Word
  deriving DecidableEq, Repr

/-- `(w & mask) = match` (R96). -/
def TableRow.selects (r : TableRow) (w : Word) : Bool := w &&& r.mask == r.pattern

/-- The opcode map of R96. -/
def opcodeTable : List TableRow :=
  [⟨"NOP", 0x0000, 0xFFFF⟩, ⟨"START", 0x1000, 0xF000⟩, ⟨"PIX", 0x2000, 0xF000⟩, ⟨"REDUCE", 0x3000, 0xFFFF⟩,
   ⟨"EMITT", 0x4000, 0xFFFF⟩, ⟨"EMITM", 0x5000, 0xFFFF⟩, ⟨"SEL", 0x6000, 0xFC00⟩]

/-- The row of a command. -/
def tableRow : Instr → TableRow
  | .nop => ⟨"NOP", 0x0000, 0xFFFF⟩
  | .start _ _ => ⟨"START", 0x1000, 0xF000⟩
  | .pix _ => ⟨"PIX", 0x2000, 0xF000⟩
  | .reduce => ⟨"REDUCE", 0x3000, 0xFFFF⟩
  | .emitt => ⟨"EMITT", 0x4000, 0xFFFF⟩
  | .emitm => ⟨"EMITM", 0x5000, 0xFFFF⟩
  | .sel _ => ⟨"SEL", 0x6000, 0xFC00⟩

/-- A table word of `nbits` bits as the word the command port carries: the port moves whole 16-bit words and has no byte
order (20_memory.md R67); bits above `nbits` are 0. -/
def portWord (nbits w : Nat) : Word := BitVec.ofNat 16 (w % 2 ^ nbits)

/-- The instruction the decoder reads from a word numbered as spec/opcode_table.json numbers it. -/
def decodeTableWord (nbits w : Nat) : Option Instr :=
  match decode (portWord nbits w) with
  | .ok i => some i
  | .error _ => none

end Sys2Proof
end

