-- ==== Sys2Proof/Config.lean ====
section
/-! DEFINITION. What is fixed for the block (00_scope.md R6 to R8), and the free values behind UNSPEC
(10_state.md R45). -/

namespace Sys2Proof

/-- ROWS = 8 rows of an encoded tile (R6). -/
abbrev Config.rows : Nat := 8

/-- MAX_TW = MAX_TH = 32; the minimum of both is 1 (R7). -/
abbrev Config.maxDim : Nat := 32

/-- MAXT = 1024: the capacity of the tile store and of the index map (R7, R32 to R34). -/
abbrev Config.maxTiles : Nat := 1024

/-- TILE_BUDGET: a named parameter, 256 for this hardware (R8, 92_eei_decisions.md D23). -/
def Config.tileBudget : Nat := 256

/-- The draws behind UNSPEC(n) (R45, 93_implementation_defined.md U3): draw number k of a run is `Config.unspec k`, and the
counter `draws` of State makes every draw a fresh one. FREE VALUE: it has no body, so nothing can be
proved of it and every statement holds for every value of it (notes/assumptions/4). -/
opaque Config.unspec : Nat → Word

end Sys2Proof
end

