-- ==== Sys2Proof/Machine/State.lean ====
section
/-! DEFINITION. The state of the block, exactly the elements of 10_state.md section 1, and beside them the four fields of the
model's own (port, out, reads, draws) that stand for the host's side of the three interfaces of 00_scope.md R10. -/

namespace Sys2Proof.Machine

/-- The sequencer state PHASE (10_state.md R27): five values and no others. -/
inductive Phase where
  /-- 0: no export begun since reset. -/
  | idle
  /-- 1: START accepted, fewer than N tiles committed. -/
  | load
  /-- 2: all N tiles committed, REDUCE not yet run. -/
  | ready
  /-- 3: REDUCE has run, the streams can be emitted. -/
  | reduced
  /-- 4: a fault was recorded (60_exceptions.md R226). -/
  | fault
  deriving DecidableEq, Repr

/-- ERRCODE, two bits (10_state.md R30, 60_exceptions.md R220). -/
inductive ErrCode where
  /-- 0: no fault recorded. -/
  | none
  /-- 1: ERR_ILLEGAL. -/
  | illegal
  /-- 2: ERR_RANGE, the source's OutOfRange. -/
  | range
  /-- 3: ERR_SEQ. -/
  | seq
  deriving DecidableEq, Repr

/-- An output beat `(d, brk, last, kind, ovf)` (30_encoding.md R104). `kind` is false for EMITT and true for EMITM. -/
structure Beat where
  d : Byte
  brk : Bool
  last : Bool
  kind : Bool
  ovf : Bool
  deriving DecidableEq, Repr

/-- A transaction of the host (00_scope.md R10, 70_reset_and_hazards.md R260). -/
inductive Txn where
  /-- A command word on the command port. -/
  | command (w : Word)
  /-- A read of the register window, between two completed commands (20_memory.md R75). -/
  | read (addr : WinAddr)
  /-- A hardware reset between two commands. -/
  | hardReset
  /-- A hardware reset while command `w` is in progress, its first `taken` beats having been delivered (R260). -/
  | resetDuring (w : Word) (taken : Nat)
  deriving DecidableEq, Repr

/-- What one window read returned. -/
structure ReadResult where
  addr : WinAddr
  data : Word
  deriving DecidableEq, Repr

/-- An internal memory of `w`-bit elements as its written elements, (element address, value), addresses strictly rising. An
unlisted address has no value (10_state.md R35, 70_reset_and_hazards.md R262). The memories are element addressed, not byte
addressed (20_memory.md R60). -/
abbrev Memory (w : Nat) := List (Nat × BitVec w)

/-- The canonical form: addresses strictly rising, each below the number of elements of the space. -/
abbrev Memory.wf {w : Nat} (size : Nat) (m : Memory w) : Prop :=
  (m.map Prod.fst).Pairwise (· < ·) ∧ ∀ a ∈ m.map Prod.fst, a < size

/-- The three internal memories (20_memory.md R60). -/
inductive Space where
  | tgrow
  | tgdup
  | imap
  deriving DecidableEq, Repr

/-- The state of the block (10_state.md section 1) and the host's side of its interfaces. -/
structure State where
  /-- ACC[0..7], the row accumulators (R20). -/
  acc : Vector Word 8
  /-- C, the 1-based column counter (R21). -/
  c : BitVec 4
  /-- R, the 0-based row counter (R22). -/
  r : BitVec 3
  /-- TW, tileWidth (R24). -/
  tw : Dim
  /-- TH, tileHeight (R24). -/
  th : Dim
  /-- NT, tiles committed since the last START (R25). -/
  nt : TileCnt
  /-- UNIQUE, uniqueTileCount (R26). -/
  unique : TileCnt
  /-- DUPCNT, duplicateCount (R26). -/
  dupcnt : TileIdx
  /-- PHASE (R27). -/
  phase : Phase
  /-- WARN (R28). -/
  warn : Bool
  /-- RDONE (R29). -/
  rdone : Bool
  /-- ERRCODE (R30). -/
  errcode : ErrCode
  /-- SEL (R31). -/
  sel : TileIdx
  /-- TGROW, 8192 elements of 16 bits, physical contents (R32, R48). -/
  tgrow : Memory 16
  /-- TGDUP, 1024 elements of 1 bit, physical contents (R33, R48). -/
  tgdup : Memory 1
  /-- IMAP, 1024 elements of 10 bits, physical contents (R34, R48). -/
  imap : Memory 10
  /-- The model's own: the host's coming transactions, the next one first (R14, R10; notes/assumptions/1). -/
  port : List Txn
  /-- The model's own: every beat delivered so far, in order (43_stream_emitter.md R191). -/
  out : List Beat
  /-- The model's own: what the host's window reads returned so far, in order (R36). -/
  reads : List ReadResult
  /-- The model's own: how many UNSPEC values have been drawn (R45; notes/assumptions/4). -/
  draws : Nat
  deriving DecidableEq, Repr

/-- The model's stops. The block's own three faults (60_exceptions.md R220) are NOT here: each of them is a next state with
PHASE = FAULT (R226). These two arise only in states no run from reset reaches. -/
inductive Fault where
  /-- An access to an element the space does not have: TGROW, TGDUP, IMAP hold 8192, 1024, 1024 elements and no more
  (R32 to R34; 95_test_vectors.md V-BIG-6). Raised by PIX at a commit with NT >= 1024 and by REDUCE with N > 1024. Safe. -/
  | noSuchElement (space : Space)
  /-- A command would read an element that holds no value, which by R35 no command does. Raised by REDUCE, EMITT and EMITM.
  Safe. -/
  | valuelessElement (space : Space)
  deriving DecidableEq, Repr

/-- Instructions without a meaning. No instruction of this model is refused. -/
inductive Refusal where
  /-- An instruction not modelled yet, by its mnemonic. Safe; raised by no arm of exec. -/
  | notModelled (mnemonic : String)
  deriving DecidableEq, Repr

/-- The state right after a hardware reset (10_state.md R50): PHASE = IDLE, C = 1, every other scalar 0, every memory element
valueless, no beat pending; and nothing on the host's side yet (notes/assumptions/1). -/
def State.reset : State where
  acc := Vector.replicate 8 0x0000#16
  c := 1
  r := 0
  tw := 0
  th := 0
  nt := 0
  unique := 0
  dupcnt := 0
  phase := .idle
  warn := false
  rdone := false
  errcode := .none
  sel := 0
  tgrow := []
  tgdup := []
  imap := []
  port := []
  out := []
  reads := []
  draws := 0

end Sys2Proof.Machine
end

