-- ==== Sys2Proof/Machine/Operands.lean ====
section
/-! DEFINITION. What the commands make of their operands and of the data formats: the dimension bounds of START
(40_session_control.md R124), the two bits of a pixel and their places in a row (30_encoding.md R101, R100), the bytes of a row
and of an index-map entry (20_memory.md R66, 43_stream_emitter.md R197). -/

namespace Sys2Proof.Machine

/-- A dimension START accepts: 1..32 (R124). -/
def dimOk (d : Dim) : Bool := decide (1 ≤ d.toNat) && decide (d.toNat ≤ Config.maxDim)

/-- `low = v & 1` (R101). -/
def pixelLow (v : Pixel) : Bool := v.getLsbD 0

/-- `high = (v >> 1) & 1` (R101). -/
def pixelHigh (v : Pixel) : Bool := v.getLsbD 1

/-- ORs the two bits of pixel `v` at 1-based column `c` into a row: bit `16 - c` if low, bit `8 - c` if high
(41_tile_encoder.md R141). No bit is cleared. -/
def orPixel (v : Pixel) (c : Nat) (row : Word) : Word :=
  let row := if pixelLow v then row ||| (1#16 <<< (16 - c)) else row
  if pixelHigh v then row ||| (1#16 <<< (8 - c)) else row

/-- `w[15:8]`, the low-bit plane of a row, which leaves the block first (R66). -/
def rowHighByte (w : Word) : Byte := w.extractLsb' 8 8

/-- `w[7:0]`, the high-bit plane of a row (R66). -/
def rowLowByte (w : Word) : Byte := w.extractLsb' 0 8

/-- `e[7:0]`, what the stream carries of an index-map entry (R197; notes/assumptions/6). -/
def entryByte (e : TileIdx) : Byte := e.extractLsb' 0 8

/-- The 16 bytes of a tile, row 0 first, each row's high byte first (30_encoding.md R102). -/
def tileBytes : List Word → List Byte
  | [] => []
  | w :: ws => rowHighByte w :: rowLowByte w :: tileBytes ws

/-- The decoder of 41_tile_encoder.md R150, no command of the block: the pixel at row `r`, column `x` of a tile's bytes. -/
def decodePixel (b : List Byte) (r x : Nat) : Pixel :=
  BitVec.ofNat 2
    ((((b.getD (2 * r + 1) 0#8).toNat >>> (7 - x)) &&& 1) * 2 + (((b.getD (2 * r) 0#8).toNat >>> (7 - x)) &&& 1))

end Sys2Proof.Machine
end

