-- ==== Sys2Proof/Machine/Ops.lean ====
section
/-! DEFINITION. The named operations over memories and registers that the meanings share: element reads and writes, what holds
a value (10_state.md R35), the phase table (30_encoding.md R108), fault entry (60_exceptions.md R226), the clearing step of
START (40_session_control.md R123), hardware reset (70_reset_and_hazards.md R260), and the output and draw records. -/

namespace Sys2Proof.Machine

/-! ### Memories -/

/-- `MemRead(space, addr, w)`: the physical contents of one element, none where it was never written. -/
def memRead {w : Nat} : Memory w → Nat → Option (BitVec w)
  | [], _ => none
  | (b, v) :: rest, a => if a = b then some v else memRead rest a

/-- `MemWrite(space, addr, w, v)`, keeping the addresses strictly rising. -/
def memWrite {w : Nat} : Memory w → Nat → BitVec w → Memory w
  | [], a, v => [(a, v)]
  | (b, u) :: rest, a, v =>
    if a < b then (a, v) :: (b, u) :: rest
    else if a = b then (a, v) :: rest
    else (b, u) :: memWrite rest a v

/-- Writes `vs` to the elements `a`, `a + 1`, ... in order. -/
def memWriteRun {w : Nat} : Memory w → Nat → List (BitVec w) → Memory w
  | m, _, [] => m
  | m, a, v :: vs => memWriteRun (memWrite m a v) (a + 1) vs

/-- Row `r` of tile `t` is element `8*t + r` of TGROW (20_memory.md R62). -/
def rowAddr (t r : Nat) : Nat := 8 * t + r

/-- `f` at each index of a list, none as soon as one has no value. -/
def gather {α : Type} (f : Nat → Option α) : List Nat → Option (List α)
  | [] => some []
  | a :: as =>
    match f a with
    | none => none
    | some x =>
      match gather f as with
      | none => none
      | some xs => some (x :: xs)

/-! ### Counts -/

/-- `N = TW * TH` (00_scope.md R7, 10_state.md R24). -/
def tileCount (s : State) : Nat := s.tw.toNat * s.th.toNat

/-- `PIXCNT = 8*R + (C - 1)` (10_state.md R23). -/
def pixCount (s : State) : Nat := 8 * s.r.toNat + (s.c.toNat - 1)

/-! ### What holds a value (10_state.md R35) -/

/-- `TG[t].row[r]`, which holds a value exactly when `t < NT`. -/
def readRow (s : State) (t r : Nat) : Option Word :=
  if t < s.nt.toNat then memRead s.tgrow (rowAddr t r) else none

/-- `TG[t].dup`, which holds a value exactly when `t < NT`; 1 is true (R33). -/
def readDup (s : State) (t : Nat) : Option (BitVec 1) :=
  if t < s.nt.toNat then memRead s.tgdup t else none

/-- `IM[t]`, which holds a value exactly when `RDONE = 1` and `t < N`. -/
def readEntry (s : State) (t : Nat) : Option TileIdx :=
  if s.rdone = true ∧ t < tileCount s then memRead s.imap t else none

/-- The eight rows of a tile, row 0 first (30_encoding.md R102). -/
abbrev TileRows := List Word

/-- `TG[t].row[0..7]`. -/
def readTile (s : State) (t : Nat) : Option TileRows := gather (readRow s t) (List.range Config.rows)

/-- The rows of tiles `0` to `n - 1`. -/
def readTiles (s : State) (n : Nat) : Option (List TileRows) := gather (readTile s) (List.range n)

/-- The duplicate flags of tiles `0` to `n - 1`, 1 as true. -/
def readDups (s : State) (n : Nat) : Option (List Bool) :=
  gather (fun t => (readDup s t).map fun b => decide (b = 1#1)) (List.range n)

/-- The index-map entries `0` to `n - 1`. -/
def readEntries (s : State) (n : Nat) : Option (List TileIdx) := gather (readEntry s) (List.range n)

/-! ### The accumulators (10_state.md R20) -/

/-- `ACC[r]`. -/
def accRead (acc : Vector Word 8) (r : BitVec 3) : Word := acc[r.toNat]'(by omega)

/-- `ACC[r] <- v`. -/
def accWrite (acc : Vector Word 8) (r : BitVec 3) (v : Word) : Vector Word 8 := acc.set r.toNat v (by omega)

/-- `for i in 0..7: ACC[i] <- 0x0000`. -/
def accZero : Vector Word 8 := Vector.replicate 8 0x0000#16

/-! ### Faults -/

/-- Fault entry (60_exceptions.md R226): `ERRCODE <- code`; `PHASE <- FAULT`; nothing else. -/
def raiseFault (code : ErrCode) (s : State) : State := { s with errcode := code, phase := .fault }

/-- The clearing step of START (40_session_control.md P123), which is also the way out of FAULT (60_exceptions.md R228): it
discards the previous export. It writes no memory (R125): NT = 0 and RDONE = 0 make every element valueless (10_state.md R35). -/
def clearExport (s : State) : State :=
  { s with
    acc := accZero, c := 1, r := 0
    nt := 0, unique := 0, dupcnt := 0, sel := 0
    warn := false, rdone := false, errcode := .none }

/-- Hardware reset (70_reset_and_hazards.md R260 to R262): every element at its reset value. The memories' physical contents
are not cleared, and are valueless since NT = 0 and RDONE = 0. The host's side keeps its records. -/
def hardwareReset (s : State) : State :=
  { clearExport s with tw := 0, th := 0, phase := .idle }

/-- A hardware reset during a command that would have ended in `done`: the command leaves no effect but the `taken` beats that
were delivered before the reset; the others are lost (70_reset_and_hazards.md R260). -/
def abandonCommand (taken : Nat) (done s : State) : State :=
  hardwareReset { s with out := s.out ++ (done.out.drop s.out.length).take taken }

/-! ### The phase table -/

/-- An entry of the phase table (30_encoding.md R108). -/
inductive Verdict where
  | ok
  | raise (code : ErrCode)
  | drop
  deriving DecidableEq, Repr

/-- The phase table of 30_encoding.md R108, row by row. -/
def phaseTable : Phase → Instr → Verdict
  | .idle, .nop => .ok
  | .idle, .start _ _ => .ok
  | .idle, .pix _ => .raise .seq
  | .idle, .reduce => .raise .seq
  | .idle, .emitt => .raise .seq
  | .idle, .emitm => .raise .seq
  | .idle, .sel _ => .ok
  | .load, .nop => .ok
  | .load, .start _ _ => .ok
  | .load, .pix _ => .ok
  | .load, .reduce => .raise .seq
  | .load, .emitt => .raise .seq
  | .load, .emitm => .raise .seq
  | .load, .sel _ => .ok
  | .ready, .nop => .ok
  | .ready, .start _ _ => .ok
  | .ready, .pix _ => .raise .range
  | .ready, .reduce => .ok
  | .ready, .emitt => .raise .seq
  | .ready, .emitm => .raise .seq
  | .ready, .sel _ => .ok
  | .reduced, .nop => .ok
  | .reduced, .start _ _ => .ok
  | .reduced, .pix _ => .raise .seq
  | .reduced, .reduce => .raise .seq
  | .reduced, .emitt => .ok
  | .reduced, .emitm => .ok
  | .reduced, .sel _ => .ok
  | .fault, .nop => .drop
  | .fault, .start _ _ => .ok
  | .fault, .pix _ => .drop
  | .fault, .reduce => .drop
  | .fault, .emitt => .drop
  | .fault, .emitm => .drop
  | .fault, .sel _ => .drop

/-- The phase check that comes before any line of a command's pseudocode (60_exceptions.md R225): the command is executed,
raises the table's fault, or is dropped with no state change (R227). -/
def phaseGate (i : Instr) (s : State) (act : State → Host.Outcome State Fault Refusal) : Host.Outcome State Fault Refusal :=
  match phaseTable s.phase i with
  | .ok => act s
  | .raise code => .next (raiseFault code s)
  | .drop => .next s

/-- A word that decodes to no command (30_encoding.md R97, R98): ERR_ILLEGAL, but in FAULT it is dropped (R227). -/
def illegalWord (s : State) : State := if s.phase = .fault then s else raiseFault .illegal s

/-! ### The output stream and the draws -/

/-- `emit` for each beat of a command, in order (43_stream_emitter.md R190, R191). -/
def emitBeats (beats : List Beat) (s : State) : State := { s with out := s.out ++ beats }

/-- UNSPEC restricted to a field of `width` bits, the bits above it 0 (10_state.md R45). -/
def unspecField (width draw : Nat) : Word := ((Config.unspec draw).setWidth width).setWidth 16

/-! ### The host's transactions -/

/-- The next transaction of the host and the state in which it takes place; none while the host issues nothing
(70_reset_and_hazards.md R261, 60_exceptions.md R241). Each is taken exactly once, in order (20_memory.md R71, R74). -/
def takeTxn (s : State) : Option (Txn × State) :=
  match s.port with
  | [] => none
  | t :: rest => some (t, { s with port := rest })

end Sys2Proof.Machine
end

