-- ==== Sys2Proof/Machine/Control.lean ====
section
/-! DEFINITION. Session control: NOP, START, SEL (40_session_control.md). -/

namespace Sys2Proof.Machine

/-- NOP changes no state and emits no beat, in every phase (R120). -/
def execNop (s : State) : Host.Outcome State Fault Refusal := phaseGate .nop s .next

/-- Latching the dimensions of an accepted START (R123). -/
def latchGrid (th tw : Dim) (s : State) : State := { s with tw := tw, th := th, phase := .load }

/-- A START with a dimension outside 1..32: `TW = TH = 0` and ERR_RANGE (R123, R124). -/
def refuseGrid (s : State) : State := raiseFault .range { s with tw := 0, th := 0 }

/-- START th, tw, pseudocode P123: clear first, then check each axis on its own (R123, R124). -/
def execStart (th tw : Dim) (s : State) : Host.Outcome State Fault Refusal :=
  phaseGate (.start th tw) s fun s =>
    let s := clearExport s
    if dimOk tw && dimOk th then .next (latchGrid th tw s) else .next (refuseGrid s)

/-- SEL t: `SEL <- t` and nothing else (R127). -/
def execSel (t : TileIdx) (s : State) : Host.Outcome State Fault Refusal :=
  phaseGate (.sel t) s fun s => .next { s with sel := t }

end Sys2Proof.Machine
end

