-- ==== Sys2Proof/Machine/Flags.lean ====
section
/-! DEFINITION. Every flag the block computes: WARN (10_state.md R28), the fields of STATUS (R37), and the flags of a beat
(43_stream_emitter.md R192, R195, R197). -/

namespace Sys2Proof.Machine

/-- `WARN <- 1 if UNIQUE > TILE_BUDGET else 0`, unsigned and strict (42_duplicate_reducer.md R165, R173 d). -/
def warnFlag (unique : Nat) : Bool := decide (unique > Config.tileBudget)

/-- `ovf`: the entry does not fit a byte (43_stream_emitter.md R197). -/
def ovfFlag (e : TileIdx) : Bool := decide (256 ≤ e.toNat)

/-- `brk` of map entry `t`: it ends a grid row (43_stream_emitter.md R195). -/
def rowEndFlag (tw t : Nat) : Bool := decide ((t + 1) % tw = 0)

/-- PHASE as its three bits (10_state.md R27). -/
def phaseCode : Phase → BitVec 3
  | .idle => 0
  | .load => 1
  | .ready => 2
  | .reduced => 3
  | .fault => 4

/-- ERRCODE as its two bits (60_exceptions.md R220). -/
def errCode : ErrCode → BitVec 2
  | .none => 0
  | .illegal => 1
  | .range => 2
  | .seq => 3

/-- STATUS (10_state.md R37): bits 2:0 PHASE, bit 3 WARN, bits 5:4 ERRCODE, bit 6 RDONE, bits 15:7 zero. -/
def statusWord (s : State) : Word :=
  0#9 ++ BitVec.ofBool s.rdone ++ errCode s.errcode ++ BitVec.ofBool s.warn ++ phaseCode s.phase

end Sys2Proof.Machine
end

