-- ==== Sys2Proof/Machine/Emitter.lean ====
section
/-! DEFINITION. The StreamEmitter: EMITT and EMITM (43_stream_emitter.md). -/

namespace Sys2Proof.Machine

/-- The beats of one tile from row `r` on (P192): each row's high byte, then its low byte; `brk` on the low byte of row 7, with
`last` there if it is the last tile emitted. -/
def tileBeats (lastTile : Bool) : Nat → TileRows → List Beat
  | _, [] => []
  | r, w :: ws =>
    ⟨rowHighByte w, false, false, false, false⟩ ::
      ⟨rowLowByte w, decide (r = 7), decide (r = 7) && lastTile, false, false⟩ :: tileBeats lastTile (r + 1) ws

/-- The loop of P192, `k` tiles emitted so far: a tile with its flag set is skipped (R192). -/
def emitTiles (unique : Nat) : Nat → List Bool → List TileRows → List Beat
  | k, dup :: dups, rows :: tiles =>
    if dup then emitTiles unique k dups tiles
    else tileBeats (decide (k + 1 = unique)) 0 rows ++ emitTiles unique (k + 1) dups tiles
  | _, [], _ => []
  | _, _ :: _, [] => []

/-- EMITT, pseudocode P192 (R192). It changes no state element of the block (R199). A valueless tile below `N` arises in no run
(10_state.md R35) and is a stop. -/
def execEmitt (s : State) : Host.Outcome State Fault Refusal :=
  phaseGate .emitt s fun s =>
    match readDups s (tileCount s) with
    | none => .fault (.valuelessElement .tgdup)
    | some dups =>
      match readTiles s (tileCount s) with
      | none => .fault (.valuelessElement .tgrow)
      | some tiles => .next (emitBeats (emitTiles s.unique.toNat 0 dups tiles) s)

/-- The beat of map entry `t` of `n` (P195). -/
def mapBeat (tw n t : Nat) (e : TileIdx) : Beat :=
  ⟨entryByte e, rowEndFlag tw t, decide (t + 1 = n), true, ovfFlag e⟩

/-- The loop of P195 from entry `t` on. -/
def emitEntries (tw n : Nat) : Nat → List TileIdx → List Beat
  | _, [] => []
  | t, e :: es => mapBeat tw n t e :: emitEntries tw n (t + 1) es

/-- EMITM, pseudocode P195 (R195). It changes no state element of the block (R199). A valueless entry below `N` arises in no run
(10_state.md R35) and is a stop. -/
def execEmitm (s : State) : Host.Outcome State Fault Refusal :=
  phaseGate .emitm s fun s =>
    match readEntries s (tileCount s) with
    | none => .fault (.valuelessElement .imap)
    | some entries => .next (emitBeats (emitEntries s.tw.toNat (tileCount s) 0 entries) s)

end Sys2Proof.Machine
end

