-- ==== Sys2Proof/Machine/Encoder.lean ====
section
/-! DEFINITION. The TileEncoder: PIX (41_tile_encoder.md). -/

namespace Sys2Proof.Machine

/-- P141's first lines: the pixel's two bits ORed into `ACC[R]` at column `C` (R141). -/
def addPixel (v : Pixel) (s : State) : State :=
  { s with acc := accWrite s.acc s.r (orPixel v s.c.toNat (accRead s.acc s.r)) }

/-- P143: the accumulators go to tile `NT`, its flag is cleared, the accumulators are cleared, `NT` advances, and the last tile
of the grid ends the loading (R143). -/
def commitTile (s : State) : State :=
  { s with
    tgrow := memWriteRun s.tgrow (rowAddr s.nt.toNat 0) s.acc.toList
    tgdup := memWrite s.tgdup s.nt.toNat 0#1
    acc := accZero
    nt := s.nt + 1
    phase := if s.nt.toNat + 1 = tileCount s then .ready else s.phase }

/-- PIX v, pseudocode P141 (R141 to R143). A commit at `NT >= 1024` would write an element TGROW does not have; it arises in no
run (10_state.md R51 h) and is a stop. -/
def execPix (v : Pixel) (s : State) : Host.Outcome State Fault Refusal :=
  phaseGate (.pix v) s fun s =>
    let s1 := addPixel v s
    if s.c.toNat < 8 then .next { s1 with c := s.c + 1 }
    else if s.r.toNat < 7 then .next { s1 with c := 1, r := s.r + 1 }
    else if s.nt.toNat < Config.maxTiles then .next (commitTile { s1 with c := 1, r := 0 })
    else .fault (.noSuchElement .tgrow)

end Sys2Proof.Machine
end

