-- ==== Sys2Proof/Machine/Reducer.lean ====
section
/-! DEFINITION. The DuplicateReducer: REDUCE (42_duplicate_reducer.md). -/

namespace Sys2Proof.Machine

/-- `equal(a, b)` of P165: row by row, false at the first mismatching row (R163). -/
def rowsEqual : TileRows → TileRows → Bool
  | [], [] => true
  | a :: as, b :: bs => if a ≠ b then false else rowsEqual as bs
  | [], _ :: _ => false
  | _ :: _, [] => false

/-- The rows of tile `t` of a grid that was read. -/
def tileAt (tiles : List TileRows) (t : Nat) : TileRows := tiles.getD t []

/-- The working values of one REDUCE, no state between commands (10_state.md R47): the flags and the map being built,
`previousDuplicates` and `duplicateCount`. -/
structure ReduceWork where
  dup : List Bool
  im : List Nat
  previousDuplicates : Nat
  duplicateCount : Nat
  deriving DecidableEq, Repr

/-- Step 1 of R164: `IndexMap[i] = i`, both counts 0; the flags as they stand. -/
def reduceInit (n : Nat) (dups : List Bool) : ReduceWork := ⟨dups, List.range n, 0, 0⟩

/-- One pass of the inner loop of P165: on a match, flag, count, and give the same compacted slot (step 2c). -/
def reduceScan (tiles : List TileRows) (tile : Nat) (k : ReduceWork) (checktile : Nat) : ReduceWork :=
  if rowsEqual (tileAt tiles tile) (tileAt tiles checktile) then
    { k with
      dup := k.dup.set checktile true
      im := k.im.set checktile (k.im.getD tile 0)
      duplicateCount := k.duplicateCount + 1 }
  else k

/-- One pass of the outer loop of P165: steps 2a, 2b and 2c. -/
def reduceTile (tiles : List TileRows) (n : Nat) (k : ReduceWork) (tile : Nat) : ReduceWork :=
  if k.dup.getD tile false then { k with previousDuplicates := k.previousDuplicates + 1 }
  else
    (List.range' (tile + 1) (n - (tile + 1))).foldl (reduceScan tiles tile)
      { k with im := k.im.set tile (tile - k.previousDuplicates) }

/-- P165, steps 1 and 2, over tiles `0` to `n - 1`. -/
def reduceRun (tiles : List TileRows) (n : Nat) (dups : List Bool) : ReduceWork :=
  (List.range n).foldl (reduceTile tiles n) (reduceInit n dups)

/-- What REDUCE leaves (R165, step 3): flags and map of tiles `0` to `n - 1`, the counts, WARN, RDONE, PHASE. -/
def reduceCommit (n : Nat) (k : ReduceWork) (s : State) : State :=
  { s with
    tgdup := memWriteRun s.tgdup 0 (k.dup.map BitVec.ofBool)
    imap := memWriteRun s.imap 0 (k.im.map (BitVec.ofNat 10))
    dupcnt := BitVec.ofNat 10 k.duplicateCount
    unique := BitVec.ofNat 11 (n - k.duplicateCount)
    warn := warnFlag (n - k.duplicateCount)
    rdone := true
    phase := .reduced }

/-- REDUCE, pseudocode P165 (R165). TGROW is read once, since no line of P165 writes it. `N > 1024` and a valueless tile below `N`
arise in no run (10_state.md R51, R35) and are stops. -/
def execReduce (s : State) : Host.Outcome State Fault Refusal :=
  phaseGate .reduce s fun s =>
    if Config.maxTiles < tileCount s then .fault (.noSuchElement .imap)
    else
      match readTiles s (tileCount s) with
      | none => .fault (.valuelessElement .tgrow)
      | some tiles =>
        match readDups s (tileCount s) with
        | none => .fault (.valuelessElement .tgdup)
        | some dups => .next (reduceCommit (tileCount s) (reduceRun tiles (tileCount s) dups) s)

end Sys2Proof.Machine
end

