-- ==== Sys2Proof/Machine/Dispatch.lean ====
section
/-! DEFINITION. One arm per command. -/

namespace Sys2Proof.Machine

def exec (i : Instr) (s : State) : Host.Outcome State Fault Refusal :=
  match i with
  | .nop => Sys2Proof.Machine.execNop s
  | .start th tw => Sys2Proof.Machine.execStart th tw s
  | .pix v => Sys2Proof.Machine.execPix v s
  | .reduce => Sys2Proof.Machine.execReduce s
  | .emitt => Sys2Proof.Machine.execEmitt s
  | .emitm => Sys2Proof.Machine.execEmitm s
  | .sel t => Sys2Proof.Machine.execSel t s

end Sys2Proof.Machine
end

