-- ==== Sys2Proof/Machine/Window.lean ====
section
/-! DEFINITION. The register window: 32 read-only words (10_state.md section 7). -/

namespace Sys2Proof.Machine

/-- What a window address shows: a value, or UNSPEC in a field of some width (R45). -/
inductive Shown where
  | value (w : Word)
  | unspec (width : Nat)
  deriving DecidableEq, Repr

/-- An element the window shows: its value zero-extended, or UNSPEC of its width where it holds none (R42, R45). -/
def showElement {w : Nat} : Option (BitVec w) → Shown
  | some v => .value (v.setWidth 16)
  | none => .unspec w

/-- The window table of R36, by address. -/
def windowShown (s : State) (addr : WinAddr) : Shown :=
  let a := addr.toNat
  if a = 0x00 then .value (statusWord s)
  else if a = 0x01 then .value (s.tw.setWidth 16)
  else if a = 0x02 then .value (s.th.setWidth 16)
  else if a = 0x03 then .value (s.nt.setWidth 16)
  else if a = 0x04 then .value (BitVec.ofNat 16 (pixCount s))
  else if a = 0x05 then .value (s.unique.setWidth 16)
  else if a = 0x06 then .value (s.dupcnt.setWidth 16)
  else if a = 0x07 then .value (s.sel.setWidth 16)
  else if a = 0x08 then showElement (readEntry s s.sel.toNat)
  else if a = 0x09 then showElement (readDup s s.sel.toNat)
  else if a < 0x10 then .value 0x0000#16
  else if a < 0x18 then showElement (readRow s s.sel.toNat (a - 0x10))
  else .value (accRead s.acc (BitVec.ofNat 3 (a - 0x18)))

/-- One window read: it changes no state of the block (R36); what it returned is recorded, and an UNSPEC value is a fresh draw
(R45). -/
def windowRead (addr : WinAddr) (s : State) : State :=
  match windowShown s addr with
  | .value w => { s with reads := s.reads ++ [⟨addr, w⟩] }
  | .unspec width => { s with reads := s.reads ++ [⟨addr, unspecField width s.draws⟩], draws := s.draws + 1 }

end Sys2Proof.Machine
end

