-- ==== Sys2Proof/Machine/Step.lean ====
section
/-! DEFINITION. One step: the host's next transaction, taken whole (00_scope.md R14, 20_memory.md R70, R74). -/

namespace Sys2Proof.Machine

/-- One transaction. A command word is decoded (30_encoding.md R105) and executed, or is an illegal word (R97, R98); a window
read shows the state between two commands (20_memory.md R75); a hardware reset resets, also in the middle of a command
(70_reset_and_hazards.md R260). With no transaction the block is idle and holds its state (60_exceptions.md R241). -/
def step (s : State) : Host.Outcome State Fault Refusal :=
  match takeTxn s with
  | none => .next s
  | some (.command w, s1) =>
    match decode w with
    | .ok i => exec i s1
    | .error _ => .next (illegalWord s1)
  | some (.read addr, s1) => .next (windowRead addr s1)
  | some (.hardReset, s1) => .next (hardwareReset s1)
  | some (.resetDuring w taken, s1) =>
    match decode w with
    | .ok i =>
      match exec i s1 with
      | .next done => .next (abandonCommand taken done s1)
      | .fault r => .fault r
      | .refused r => .refused r
    | .error _ => .next (hardwareReset s1)

/-- `s` with a table word as the host's next transaction on the command port (notes/assumptions/1). -/
def State.withFetchWord (s : State) (nbits w : Nat) : State :=
  { s with port := .command (portWord nbits w) :: s.port }

end Sys2Proof.Machine
end

