-- ==== Sys2Proof/WellFormed.lean ====
section
/-! DEFINITION. The checks an assembler makes on a source line (30_encoding.md R107): an operand that does not fit its field
is refused. A decoded `Instr` needs no check: its operands have their fields' widths. -/

namespace Sys2Proof

/-- A pixel operand lies in 0..3 (R107). -/
def pixelOperandOk (v : Nat) : Bool := decide (v < 4)

/-- A source line whose operands fit their fields and whose operand lists have the length the form asks for (R107, R109).
START with 0 or 33..63 is accepted: it assembles and faults at run time (R92). -/
def Source.wf : Source → Bool
  | .start th tw => decide (th < 64) && decide (tw < 64)
  | .pix v => pixelOperandOk v
  | .sel t => decide (t < 1024)
  | .raw w => decide (w < 65536)
  | .row8 vs => decide (vs.length = 8) && vs.all pixelOperandOk
  | .tile vs => decide (vs.length = 64) && vs.all pixelOperandOk
  | .fill v _ => pixelOperandOk v
  | .nop => true
  | .reduce => true
  | .emitt => true
  | .emitm => true
  | .exportAll => true

end Sys2Proof
end

