-- ==== Sys2Proof/Machine/Assembler.lean ====
section
/-! DEFINITION. The assembler syntax (30_encoding.md R107) and the pseudo-instructions (R109): from the characters of a source
text to command words. No part of the block. -/

namespace Sys2Proof.Machine

/-- Why a source line is refused (R107). -/
inductive AsmError where
  | unknownMnemonic (name : List Char)
  | badOperands (name : List Char)
  | operandRange (line : Source)
  deriving DecidableEq, Repr

/-- The value of a hexadecimal digit, either case; a decimal digit is one below 10. -/
def digitValue (ch : Char) : Option Nat :=
  if '0' ≤ ch ∧ ch ≤ '9' then some (ch.toNat - '0'.toNat)
  else if 'a' ≤ ch ∧ ch ≤ 'f' then some (ch.toNat - 'a'.toNat + 10)
  else if 'A' ≤ ch ∧ ch ≤ 'F' then some (ch.toNat - 'A'.toNat + 10)
  else none

/-- Digits in a base, most significant first, after the value read so far. -/
def parseDigits (base : Nat) : Nat → List Char → Option Nat
  | acc, [] => some acc
  | acc, ch :: chs =>
    match digitValue ch with
    | some d => if d < base then parseDigits base (base * acc + d) chs else none
    | none => none

/-- A decimal or `0x` hexadecimal operand (R107). -/
def parseNumber : List Char → Option Nat
  | [] => none
  | '0' :: 'x' :: ch :: chs => parseDigits 16 0 (ch :: chs)
  | ch :: chs => parseDigits 10 0 (ch :: chs)

/-- White space inside a line. -/
def isBlank (ch : Char) : Bool := ch == ' ' || ch == '\t' || ch == '\r'

/-- A piece of text without the white space around it. -/
def trimBlank (chs : List Char) : List Char := ((chs.dropWhile isBlank).reverse.dropWhile isBlank).reverse

/-- The pieces of a text between occurrences of `sep`. -/
def splitAtChar (sep : Char) : List Char → List (List Char)
  | [] => [[]]
  | ch :: chs =>
    match splitAtChar sep chs with
    | [] => [[ch]]
    | piece :: pieces => if ch = sep then [] :: piece :: pieces else (ch :: piece) :: pieces

/-- Every piece a number, or none. -/
def parseNumbers : List (List Char) → Option (List Nat)
  | [] => some []
  | piece :: pieces =>
    match parseNumber (trimBlank piece), parseNumbers pieces with
    | some n, some ns => some (n :: ns)
    | _, _ => none

/-- The operands of a line: numbers separated by a comma and optional spaces (R107); an empty text has none. -/
def parseOperands (chs : List Char) : Option (List Nat) :=
  match trimBlank chs with
  | [] => some []
  | text => parseNumbers (splitAtChar ',' text)

/-- The form a mnemonic names, with its operands (R107, R109): a mnemonic nobody knows and a wrong number of operands are told
apart. -/
def sourceOf (name : List Char) (ops : List Nat) : Except AsmError Source :=
  if name = "NOP".toList then (if ops = [] then .ok .nop else .error (.badOperands name))
  else if name = "START".toList then
    match ops with
    | [th, tw] => .ok (.start th tw)
    | _ => .error (.badOperands name)
  else if name = "PIX".toList then
    match ops with
    | [v] => .ok (.pix v)
    | _ => .error (.badOperands name)
  else if name = "REDUCE".toList then (if ops = [] then .ok .reduce else .error (.badOperands name))
  else if name = "EMITT".toList then (if ops = [] then .ok .emitt else .error (.badOperands name))
  else if name = "EMITM".toList then (if ops = [] then .ok .emitm else .error (.badOperands name))
  else if name = "SEL".toList then
    match ops with
    | [t] => .ok (.sel t)
    | _ => .error (.badOperands name)
  else if name = ".word".toList then
    match ops with
    | [w] => .ok (.raw w)
    | _ => .error (.badOperands name)
  else if name = "ROW8".toList then .ok (.row8 ops)
  else if name = "TILE".toList then .ok (.tile ops)
  else if name = "FILL".toList then
    match ops with
    | [v, n] => .ok (.fill v n)
    | _ => .error (.badOperands name)
  else if name = "EXPORT".toList then (if ops = [] then .ok .exportAll else .error (.badOperands name))
  else .error (.unknownMnemonic name)

/-- One line: `;` starts a comment; a line with nothing else is empty (R107). -/
def parseLine (chs : List Char) : Except AsmError (Option Source) :=
  match trimBlank (chs.takeWhile (· ≠ ';')) with
  | [] => .ok none
  | text =>
    let name := text.takeWhile fun ch => !isBlank ch
    match parseOperands (text.dropWhile fun ch => !isBlank ch) with
    | none => .error (.badOperands name)
    | some ops =>
      match sourceOf name ops with
      | .ok line => .ok (some line)
      | .error e => .error e

/-- The PIX word of a written pixel value (R93). -/
def pixWord (v : Nat) : Word := encode (.pix (BitVec.ofNat 2 v))

/-- The words of a well-formed line: one word, or the expansion of a pseudo-instruction (R109). -/
def expand : Source → List Word
  | .nop => [encode .nop]
  | .start th tw => [encode (.start (BitVec.ofNat 6 th) (BitVec.ofNat 6 tw))]
  | .pix v => [pixWord v]
  | .reduce => [encode .reduce]
  | .emitt => [encode .emitt]
  | .emitm => [encode .emitm]
  | .sel t => [encode (.sel (BitVec.ofNat 10 t))]
  | .raw w => [BitVec.ofNat 16 w]
  | .row8 vs => vs.map pixWord
  | .tile vs => vs.map pixWord
  | .fill v n => List.replicate n (pixWord v)
  | .exportAll => [encode .reduce, encode .emitt, encode .emitm]

/-- The words of one line; an operand that does not fit its field is refused (R107). -/
def assembleLine (chs : List Char) : Except AsmError (List Word) :=
  match parseLine chs with
  | .error e => .error e
  | .ok none => .ok []
  | .ok (some line) => if line.wf then .ok (expand line) else .error (.operandRange line)

/-- The words of some lines, or the first error. -/
def assembleLines : List (List Char) → Except AsmError (List Word)
  | [] => .ok []
  | line :: lines =>
    match assembleLine line with
    | .error e => .error e
    | .ok ws =>
      match assembleLines lines with
      | .error e => .error e
      | .ok rest => .ok (ws ++ rest)

/-- The words of a source text, one command per line (R107). -/
def assembleText (text : List Char) : Except AsmError (List Word) := assembleLines (splitAtChar '\n' text)

end Sys2Proof.Machine
end

