-- ==== Sys2Proof/Machine/Consumer.lean ====
section
/-! DEFINITION. The consumer's text rendering of the output stream (43_stream_emitter.md R200 to R203). No part of the block. The
separator, the line break and the delimiter between tokens, which the spec does not give (R203), are arguments. -/

namespace Sys2Proof.Machine

/-- A hexadecimal digit, 0-9A-F (R200). -/
def hexDigit (n : Nat) : Char :=
  ['0', '1', '2', '3', '4', '5', '6', '7', '8', '9', 'A', 'B', 'C', 'D', 'E', 'F'].getD n '0'

/-- A two-hex-digit uppercase token, high digit first (R200). DESIGN CHOICE: no numeric prefix such as `0x` stands before it; R203
leaves open whether one does (notes/assumptions/11). -/
def hexToken (d : Byte) : List Char := [hexDigit (d.toNat / 16), hexDigit (d.toNat % 16)]

/-- The tile stream: a separator after every beat with `brk = 1` and `last = 0`, none after the last (R201). -/
def renderTiles (separator delimiter : List Char) : List Beat → List Char
  | [] => []
  | b :: bs =>
    hexToken b.d ++ (if b.last then [] else if b.brk then separator else delimiter) ++ renderTiles separator delimiter bs

/-- The map stream: a line break after every beat with `brk = 1`, the final one included (R202). DESIGN CHOICE: an entry above 255 is
printed as the two digits of its beat's byte and `ovf` is not shown; R203 gives no text for such an entry (notes/assumptions/11). -/
def renderMap (lineBreak delimiter : List Char) : List Beat → List Char
  | [] => []
  | b :: bs => hexToken b.d ++ (if b.brk then lineBreak else delimiter) ++ renderMap lineBreak delimiter bs

end Sys2Proof.Machine
end

