-- ==== Sys2Proof/Machine/Export.lean ====
section
/-! DEFINITION. The host's side of one export invocation (70_reset_and_hazards.md R272 to R275): the image it validates, the order
in which it pushes tiles and pixels (20_memory.md R63, R64), and its commands in order. No part of the block. -/

namespace Sys2Proof.Machine

/-- A 4-colour indexed image of `width` by `height` pixels. -/
structure Image where
  width : Nat
  height : Nat
  pixel : Nat → Nat → Pixel

/-- What the host validates before START: each axis a multiple of 8 within 8..256 (R272, 00_scope.md R7). -/
def Image.valid (img : Image) : Bool :=
  decide (img.width % 8 = 0) && decide (8 ≤ img.width) && decide (img.width ≤ 256) &&
    decide (img.height % 8 = 0) && decide (8 ≤ img.height) && decide (img.height ≤ 256)

/-- tileWidth: the image's width divided by 8 (R7). -/
def Image.tileWidth (img : Image) : Nat := img.width / 8

/-- tileHeight (R7). -/
def Image.tileHeight (img : Image) : Nat := img.height / 8

/-- `readTile(col, row)`: the 64 pixels of a tile, row-major, origin top-left (20_memory.md R64). -/
def Image.readTile (img : Image) (col row : Nat) : List Pixel :=
  (List.range 64).map fun p => img.pixel (8 * col + p % 8) (8 * row + p / 8)

/-- The `k`-th tile pushed is `readTile(k mod TW, k / TW)` (20_memory.md R63). -/
def Image.tile (img : Image) (k : Nat) : List Pixel := img.readTile (k % img.tileWidth) (k / img.tileWidth)

/-- The PIX commands of the tiles of the grid in order (R273). -/
def Image.pixels (img : Image) : List Instr :=
  (List.range (img.tileWidth * img.tileHeight)).flatMap fun k => (img.tile k).map Instr.pix

/-- START with the image's dimensions in tiles (R272). -/
def Image.startCommand (img : Image) : Instr :=
  .start (BitVec.ofNat 6 img.tileHeight) (BitVec.ofNat 6 img.tileWidth)

/-- The commands of one export: START, the tiles, REDUCE, EMITT, EMITM (R273 to R275). -/
def Image.exportCommands (img : Image) : List Instr :=
  img.startCommand :: img.pixels ++ [.reduce, .emitt, .emitm]

end Sys2Proof.Machine
end

