-- ==== Sys2Proof/Safety.lean ====
section
/-! DEFINITION. The terms the statements use: running commands in order, the invariants of 10_state.md R51 and R35, the closed form
of REDUCE (42_duplicate_reducer.md R168), and agreement of two states up to contents that hold no value (10_state.md R48). -/

namespace Sys2Proof.Machine

/-- The commands of a list executed in order (20_memory.md R74), up to the first stop. -/
def execAll : List Instr → State → Host.Outcome State Fault Refusal
  | [], s => .next s
  | i :: is, s =>
    match exec i s with
    | .next t => execAll is t
    | .fault r => .fault r
    | .refused r => .refused r

/-- Both dimensions in 1..32 (10_state.md R24). -/
abbrev gridLegal (s : State) : Prop :=
  1 ≤ s.tw.toNat ∧ s.tw.toNat ≤ 32 ∧ 1 ≤ s.th.toNat ∧ s.th.toNat ≤ 32

/-- The bits of `ACC` for pixel `p` of the tile (0..63, row-major): bit `15 - x` and bit `7 - x` of row `p / 8` with
`x = p mod 8` (20_memory.md R65). -/
abbrev accPixelClear (acc : Vector Word 8) (p : Nat) : Prop :=
  (accRead acc (BitVec.ofNat 3 (p / 8))).getLsbD (15 - p % 8) = false ∧
    (accRead acc (BitVec.ofNat 3 (p / 8))).getLsbD (7 - p % 8) = false

/-- The invariant of the block: 10_state.md R51 (a) to (i), the validity of stored elements (R35), the flags before REDUCE
(42_duplicate_reducer.md R166), the range of map entries (30_encoding.md R103), and the canonical form of the memories. -/
structure Inv (s : State) : Prop where
  /-- R51 (a); `R` has three bits. -/
  col : 1 ≤ s.c.toNat ∧ s.c.toNat ≤ 8
  /-- R51 (b). -/
  fault_iff : s.phase = .fault ↔ s.errcode ≠ .none
  /-- R24. -/
  dims : (s.tw.toNat = 0 ∧ s.th.toNat = 0) ∨ gridLegal s
  /-- R51 (c); ACC follows from `acc_clear`. -/
  idle : s.phase = .idle → s.tw.toNat = 0 ∧ s.th.toNat = 0 ∧ s.nt.toNat = 0 ∧ pixCount s = 0 ∧ s.rdone = false
  /-- R51 (d). -/
  load : s.phase = .load → gridLegal s ∧ s.nt.toNat < tileCount s ∧ s.rdone = false
  /-- R51 (e). -/
  ready : s.phase = .ready → s.nt.toNat = tileCount s ∧ 1 ≤ tileCount s ∧ pixCount s = 0 ∧ s.rdone = false
  /-- R51 (f), with `reduced_counts`. -/
  reduced : s.phase = .reduced → s.rdone = true
  /-- R51 (f), in FAULT too (R29). -/
  reduced_counts : s.rdone = true →
    s.nt.toNat = tileCount s ∧ 1 ≤ tileCount s ∧ pixCount s = 0 ∧ 1 ≤ s.unique.toNat ∧
      s.unique.toNat + s.dupcnt.toNat = tileCount s ∧ s.warn = decide (s.unique.toNat > Config.tileBudget)
  /-- R51 (g). -/
  not_reduced : s.rdone = false → s.unique.toNat = 0 ∧ s.dupcnt.toNat = 0 ∧ s.warn = false
  /-- R51 (h). -/
  tiles_le : s.nt.toNat ≤ tileCount s
  /-- R51 (i). -/
  acc_clear : ∀ p < 64, pixCount s ≤ p → accPixelClear s.acc p
  /-- R35: a committed tile's rows hold a value. -/
  rows_valued : ∀ t < s.nt.toNat, ∀ r < 8, (readRow s t r).isSome = true
  /-- R35: a committed tile's flag holds a value. -/
  dups_valued : ∀ t < s.nt.toNat, (readDup s t).isSome = true
  /-- R166. -/
  dups_false : s.rdone = false → ∀ t < s.nt.toNat, readDup s t = some 0#1
  /-- R35 and R103. -/
  entries_valued : s.rdone = true → ∀ t < tileCount s, ∃ e, readEntry s t = some e ∧ e.toNat < s.unique.toNat
  tgrow_wf : Memory.wf 8192 s.tgrow
  tgdup_wf : Memory.wf 1024 s.tgdup
  imap_wf : Memory.wf 1024 s.imap

/-! ### The closed form of REDUCE (R168) -/

/-- `first(t)`: the least `s <= t` with `equal(s, t)`. -/
def firstOf (tiles : List TileRows) (t : Nat) : Nat :=
  ((List.range (t + 1)).find? fun s => decide (tileAt tiles s = tileAt tiles t)).getD t

/-- `first(t) = t`: the tile is canonical. -/
def isCanonical (tiles : List TileRows) (t : Nat) : Bool := decide (firstOf tiles t = t)

/-- The number of canonical tiles before the first occurrence of `t`'s content. -/
def slotOf (tiles : List TileRows) (t : Nat) : Nat := (List.range (firstOf tiles t)).countP (isCanonical tiles)

/-- The number of `t < n` with `first(t) = t`. -/
def uniqueOf (tiles : List TileRows) (n : Nat) : Nat := (List.range n).countP (isCanonical tiles)

/-- The number of `t < n` with `first(t) < t`. -/
def duplicatesOf (tiles : List TileRows) (n : Nat) : Nat :=
  (List.range n).countP fun t => decide (firstOf tiles t < t)

/-- Flags, map and counts are those of the closed form for the stored rows (R168). -/
def Reduced (s : State) : Prop :=
  ∃ tiles, readTiles s (tileCount s) = some tiles ∧
    (∀ t < tileCount s, readDup s t = some (BitVec.ofBool (decide (firstOf tiles t < t)))) ∧
    (∀ t < tileCount s, readEntry s t = some (BitVec.ofNat 10 (slotOf tiles t))) ∧
    s.unique.toNat = uniqueOf tiles (tileCount s) ∧ s.dupcnt.toNat = duplicatesOf tiles (tileCount s)

/-- Once REDUCE has completed its results stand until the next START or reset (70_reset_and_hazards.md R270). -/
def ReducedInv (s : State) : Prop := s.rdone = true → Reduced s

/-! ### The reset table -/

/-- Every state element at its value of the table of 10_state.md R50. -/
structure AtReset (s : State) : Prop where
  acc : ∀ r < 8, accRead s.acc (BitVec.ofNat 3 r) = 0x0000#16
  c : s.c = 1
  r : s.r = 0
  tw : s.tw = 0
  th : s.th = 0
  nt : s.nt = 0
  unique : s.unique = 0
  dupcnt : s.dupcnt = 0
  phase : s.phase = .idle
  warn : s.warn = false
  rdone : s.rdone = false
  errcode : s.errcode = .none
  sel : s.sel = 0
  rows : ∀ k r, readRow s k r = none
  dups : ∀ k, readDup s k = none
  entries : ∀ k, readEntry s k = none
  status : statusWord s = 0x0000#16

/-! ### Illegal words -/

/-- The words 30_encoding.md R97 and R98 list: 0x7000 to 0xFFFF; 0x0001 to 0x0FFF, 0x3001 to 0x3FFF, 0x4001 to 0x4FFF, 0x5001 to
0x5FFF; 0x6400 to 0x6FFF. -/
def IllegalRange (w : Word) : Prop :=
  0x7000 ≤ w.toNat ∨ (0x0001 ≤ w.toNat ∧ w.toNat ≤ 0x0FFF) ∨ (0x3001 ≤ w.toNat ∧ w.toNat ≤ 0x3FFF) ∨
    (0x4001 ≤ w.toNat ∧ w.toNat ≤ 0x4FFF) ∨ (0x5001 ≤ w.toNat ∧ w.toNat ≤ 0x5FFF) ∨ (0x6400 ≤ w.toNat ∧ w.toNat ≤ 0x6FFF)

/-! ### Agreement of two states -/

/-- The same state but for physical contents that hold no value (10_state.md R35, R48). -/
structure SameValued (s t : State) : Prop where
  acc : s.acc = t.acc
  c : s.c = t.c
  r : s.r = t.r
  tw : s.tw = t.tw
  th : s.th = t.th
  nt : s.nt = t.nt
  unique : s.unique = t.unique
  dupcnt : s.dupcnt = t.dupcnt
  phase : s.phase = t.phase
  warn : s.warn = t.warn
  rdone : s.rdone = t.rdone
  errcode : s.errcode = t.errcode
  sel : s.sel = t.sel
  rows : ∀ k, ∀ r < 8, readRow s k r = readRow t k r
  dups : ∀ k, readDup s k = readDup t k
  entries : ∀ k, readEntry s k = readEntry t k
  port : s.port = t.port
  out : s.out = t.out
  reads : s.reads = t.reads
  draws : s.draws = t.draws

/-- Two outcomes of the same kind, with states related by `R` or the same reason. -/
def OutcomeRel (R : State → State → Prop) : Host.Outcome State Fault Refusal → Host.Outcome State Fault Refusal → Prop
  | .next s, .next t => R s t
  | .fault a, .fault b => a = b
  | .refused a, .refused b => a = b
  | .next _, .fault _ => False
  | .next _, .refused _ => False
  | .fault _, .next _ => False
  | .fault _, .refused _ => False
  | .refused _, .next _ => False
  | .refused _, .fault _ => False

end Sys2Proof.Machine
end

