-- ==== Sys2Proof/Certificates/Slice0/Obligations.lean ====
section
/-! DEFINITION. The statements for the provers, grouped by the spec file their rules stand in. A statement about a next state says
for which states and operands exec answers one. -/

open Sys2Proof Sys2Proof.Machine

/-! ### Encoding (30_encoding.md) -/

/-- Words written out from the encodings of R96, R97, R98 decode to what they stand for (95_test_vectors.md V-ENC-1, V-ENC-2). -/
def Obligations.SpecWordsDecode : Prop :=
  decode 0x0000#16 = .ok .nop ∧ decode 0x1083#16 = .ok (.start 2#6 3#6) ∧ decode 0x129A#16 = .ok (.start 10#6 26#6) ∧
    decode 0x2ABD#16 = .ok (.pix 1#2) ∧ decode 0x3000#16 = .ok .reduce ∧ decode 0x4000#16 = .ok .emitt ∧
    decode 0x5000#16 = .ok .emitm ∧ decode 0x6100#16 = .ok (.sel 256#10) ∧
    decode 0x0800#16 = .error (.operandNotZero 0#4 0x800#12) ∧ decode 0x6400#16 = .error (.selHighBits 0x400#12) ∧
    decode 0x7000#16 = .error (.reservedOpcode 7#4)

/-- Decoding the encoding of any command gives the command back, with every operand at every value of its field. -/
def Obligations.DecodeOfEncodeIsIdentity : Prop := ∀ i : Instr, decode (encode i) = .ok i

/-- R96: a word decodes to a command exactly when it selects a row of the opcode map; the row it selects is the command's and no
other, and a word that selects no row decodes to nothing. -/
def Obligations.DecodeFollowsOpcodeMap : Prop :=
  ∀ w : Word,
    (∀ i, decode w = .ok i → ∀ row ∈ opcodeTable, row.selects w = true ↔ row = tableRow i) ∧
      (∀ e, decode w = .error e → ∀ row ∈ opcodeTable, row.selects w = false)

/-- R92, R93, R94: the decoded operands are the unsigned fields of the word, taken literally. -/
def Obligations.DecodedOperandsAreLiteralFields : Prop :=
  ∀ w : Word,
    (∀ th tw, decode w = .ok (.start th tw) → th.toNat = w.toNat / 64 % 64 ∧ tw.toNat = w.toNat % 64) ∧
      (∀ v, decode w = .ok (.pix v) → v.toNat = w.toNat % 4) ∧ (∀ t, decode w = .ok (.sel t) → t.toNat = w.toNat % 1024)

/-- R93: whatever bits 11:2 of a PIX word hold, it is the PIX of its low two bits; the two planes' bits are `v & 1` and
`(v >> 1) & 1`; the canonical word is `0x2000 | v`. -/
def Obligations.PixUpperBitsAreIgnored : Prop :=
  (∀ w : Word, w.extractLsb' 12 4 = 0x2#4 → decode w = .ok (.pix (w.extractLsb' 0 2))) ∧
    ∀ v : Pixel, encode (.pix v) = 0x2000#16 ||| v.setWidth 16 ∧ pixelLow v = decide (v &&& 1#2 = 1#2) ∧
      pixelHigh v = decide (v >>> 1 &&& 1#2 = 1#2)

/-- R97, R98, R99: the illegal words are exactly the listed ones. -/
def Obligations.IllegalWordsAreTheListedOnes : Prop :=
  ∀ w : Word, (∃ e, decode w = .error e) ↔ IllegalRange w

/-- R97, R98, R221: an illegal word raises ERR_ILLEGAL in every phase but FAULT and has no other effect. -/
def Obligations.IllegalWordRaisesErrIllegal : Prop :=
  ∀ (s : State) (w : Word) (rest : List Txn), s.port = .command w :: rest → s.phase ≠ .fault → IllegalRange w →
    step s = .next { s with port := rest, errcode := .illegal, phase := .fault }

/-- R109: each pseudo-instruction expands to the commands the rule lists. -/
def Obligations.PseudoInstructionsExpand : Prop :=
  (∀ vs, (Source.row8 vs).wf = true → (expand (.row8 vs)).map decode = vs.map fun v => .ok (.pix (BitVec.ofNat 2 v))) ∧
    (∀ vs, (Source.tile vs).wf = true → (expand (.tile vs)).map decode = vs.map fun v => .ok (.pix (BitVec.ofNat 2 v))) ∧
    (∀ v n, (Source.fill v n).wf = true → (expand (.fill v n)).map decode = List.replicate n (.ok (.pix (BitVec.ofNat 2 v)))) ∧
    (expand .exportAll).map decode = [.ok .reduce, .ok .emitt, .ok .emitm]

/-! ### Reset and the invariant (10_state.md, 70_reset_and_hazards.md) -/

/-- R50, R260: the state after reset, and what a hardware reset leaves whatever the state was. -/
def Obligations.ResetLeavesTheTableValues : Prop :=
  AtReset State.reset ∧
    ∀ (s : State) (rest : List Txn), s.port = .hardReset :: rest →
      ∃ t, step s = .next t ∧ AtReset t ∧ t.port = rest ∧ t.out = s.out

/-- R260: a hardware reset during a command leaves the reset state; of the command's beats some first ones were delivered and the
rest are lost. -/
def Obligations.ResetDuringACommandAbandonsIt : Prop :=
  ∀ (s : State) (w : Word) (taken : Nat) (rest : List Txn), Inv s → s.port = .resetDuring w taken :: rest →
    ∃ t beats, step s = .next t ∧ AtReset t ∧ t.port = rest ∧ t.out = s.out ++ beats.take taken ∧
      ∀ u, step { s with port := .command w :: rest } = .next u → u.out = s.out ++ beats

/-- R263: a hardware reset and an accepted START leave the same state but for PHASE, TW and TH. -/
def Obligations.ResetAndStartDifferInTwoThings : Prop :=
  ∀ (s : State) (th tw : Dim) (rest : List Txn), s.port = .hardReset :: rest → 1 ≤ tw.toNat → tw.toNat ≤ 32 →
    1 ≤ th.toNat → th.toNat ≤ 32 →
    ∃ t u, step s = .next t ∧ exec (.start th tw) { s with port := rest } = .next u ∧ t.phase = .idle ∧ t.tw = 0 ∧ t.th = 0 ∧
      u.phase = .load ∧ u.tw = tw ∧ u.th = th ∧ t = { u with phase := .idle, tw := 0, th := 0 }

/-- The invariants hold at reset. -/
def Obligations.ResetStateMeetsInvariants : Prop := Inv State.reset ∧ ReducedInv State.reset

/-- R51 and R35, with the canonical form of the memories: from every state with the invariant, reached or not, a step gives a state
with it. -/
def Obligations.StepKeepsInvariant : Prop := ∀ s t : State, Inv s → step s = .next t → Inv t

/-- From every state with the invariant, every transaction completes: no command reads an element that holds no value or writes one
that does not exist (R35, R51 h), and none is refused. -/
def Obligations.StepAlwaysContinues : Prop := ∀ s : State, Inv s → ∃ t, step s = .next t

/-- R270 and R168: once REDUCE has run, the flags, the map and the counts are those of the closed form for the stored rows, after
every step until the export ends. -/
def Obligations.StepKeepsReducedResults : Prop :=
  ∀ s t : State, Inv s → ReducedInv s → step s = .next t → ReducedInv t

/-! ### One step -/

/-- A command word on the port that decodes to a command runs exactly that command, the word being taken. -/
def Obligations.StepRunsTheDecodedCommand : Prop :=
  (∀ (s : State) (w : Word) (rest : List Txn) (i : Instr), s.port = .command w :: rest → decode w = .ok i →
      step s = exec i { s with port := rest }) ∧
    ∀ (s : State) (i : Instr), step (s.withFetchWord 16 (encode i).toNat) = exec i s

/-- R241, R261: with no transaction the block holds its state. -/
def Obligations.IdlePortHoldsState : Prop := ∀ s : State, s.port = [] → step s = .next s

/-! ### Session control (40_session_control.md) -/

/-- R120: NOP changes no state and emits no beat, in every phase. -/
def Obligations.NopChangesNothing : Prop := ∀ s : State, exec .nop s = .next s

/-- R123: START in every phase: clear, then latch the dimensions and enter LOAD, or record ERR_RANGE with TW = TH = 0; every element
is valueless then. It writes no memory and emits no beat (R125). -/
def Obligations.StartOpensAFreshExport : Prop :=
  ∀ (s : State) (th tw : Dim),
    let legal := 1 ≤ tw.toNat ∧ tw.toNat ≤ 32 ∧ 1 ≤ th.toNat ∧ th.toNat ≤ 32
    ∃ t, exec (.start th tw) s = .next t ∧
      t = { s with
            acc := Vector.replicate 8 0x0000#16, c := 1, r := 0, nt := 0, unique := 0, dupcnt := 0, sel := 0, warn := false
            rdone := false
            tw := if legal then tw else 0, th := if legal then th else 0
            phase := if legal then .load else .fault
            errcode := if legal then .none else .range } ∧
      (∀ k r, readRow t k r = none) ∧ (∀ k, readDup t k = none) ∧ ∀ k, readEntry t k = none

/-- R124: a START with a dimension that is 0 or above 32 raises ERR_RANGE and leaves the reset state except PHASE = FAULT and
ERRCODE = 2; with both in 1..32 it raises nothing. -/
def Obligations.StartOutOfRangeLeavesResetState : Prop :=
  ∀ (s : State) (th tw : Dim),
    ((tw.toNat = 0 ∨ 32 < tw.toNat ∨ th.toNat = 0 ∨ 32 < th.toNat) →
        ∃ t, exec (.start th tw) s = .next t ∧ t.phase = .fault ∧ t.errcode = .range ∧ errCode t.errcode = 2 ∧
          AtReset { t with phase := .idle, errcode := .none }) ∧
      ((1 ≤ tw.toNat ∧ tw.toNat ≤ 32 ∧ 1 ≤ th.toNat ∧ th.toNat ≤ 32) →
        ∃ t, exec (.start th tw) s = .next t ∧ t.phase = .load ∧ t.errcode = .none)

/-- R127: SEL sets SEL and nothing else in IDLE, LOAD, READY and REDUCED, and is dropped in FAULT; from then on the window shows tile
`x` at SELIDX, SELDUP and SELROW0 to SELROW7. -/
def Obligations.SelSetsSelAndNothingElse : Prop :=
  ∀ (s : State) (x : TileIdx),
    (s.phase = .fault → exec (.sel x) s = .next s) ∧
      (s.phase ≠ .fault → ∃ t, exec (.sel x) s = .next t ∧ t = { s with sel := x } ∧
        windowShown t 0x08#5 = showElement (readEntry s x.toNat) ∧ windowShown t 0x09#5 = showElement (readDup s x.toNat) ∧
        ∀ r < 8, windowShown t (BitVec.ofNat 5 (0x10 + r)) = showElement (readRow s x.toNat r))

/-- R31: SEL has no effect on any other command; SEL and START are the only commands that write it. -/
def Obligations.SelInfluencesNoOtherCommand : Prop :=
  ∀ (i : Instr) (s t : State) (x : TileIdx), (∀ th tw, i ≠ .start th tw) → (∀ y, i ≠ .sel y) → exec i s = .next t →
    t.sel = s.sel ∧ exec i { s with sel := x } = .next { t with sel := x }

/-- Memory frame of the commands that store nothing (R69): NOP, START, SEL, EMITT, EMITM leave every element of the three memories
as it was, whether they execute, fault or are dropped. -/
def Obligations.NonStoringCommandsLeaveMemory : Prop :=
  ∀ (i : Instr) (s t : State), (i = .nop ∨ (∃ th tw, i = .start th tw) ∨ (∃ x, i = .sel x) ∨ i = .emitt ∨ i = .emitm) →
    exec i s = .next t →
    ∀ a, memRead t.tgrow a = memRead s.tgrow a ∧ memRead t.tgdup a = memRead s.tgdup a ∧ memRead t.imap a = memRead s.imap a

/-! ### The TileEncoder (41_tile_encoder.md) -/

/-- R141, R142, R143: PIX in LOAD. `acc'` is ACC with the pixel's two bits ORed into row R at column C; then the counters advance,
and the 64th pixel of a tile commits `acc'` as tile NT. -/
def Obligations.PixAccumulatesAdvancesAndCommits : Prop :=
  ∀ (s : State) (v : Pixel), s.phase = .load → 1 ≤ s.c.toNat → s.c.toNat ≤ 8 → s.nt.toNat < 1024 →
    ∃ (t : State) (acc' : Vector Word 8), exec (.pix v) s = .next t ∧
      (∀ q : BitVec 3, q ≠ s.r → accRead acc' q = accRead s.acc q) ∧
      (∀ j < 16, (accRead acc' s.r).getLsbD j =
        ((accRead s.acc s.r).getLsbD j || (decide (j = 16 - s.c.toNat) && v.getLsbD 0) ||
          (decide (j = 8 - s.c.toNat) && v.getLsbD 1))) ∧
      (s.c.toNat < 8 → t = { s with acc := acc', c := s.c + 1 }) ∧
      (s.c.toNat = 8 → s.r.toNat < 7 → t = { s with acc := acc', c := 1, r := s.r + 1 }) ∧
      (s.c.toNat = 8 → s.r.toNat = 7 →
        (∀ r < 8, readRow t s.nt.toNat r = some (accRead acc' (BitVec.ofNat 3 r))) ∧ readDup t s.nt.toNat = some 0#1 ∧
          (∀ a, (∀ r < 8, a ≠ rowAddr s.nt.toNat r) → memRead t.tgrow a = memRead s.tgrow a) ∧
          (∀ a, a ≠ s.nt.toNat → memRead t.tgdup a = memRead s.tgdup a) ∧
          t = { s with
                acc := Vector.replicate 8 0x0000#16, c := 1, r := 0, nt := s.nt + 1
                phase := if s.nt.toNat + 1 = tileCount s then .ready else .load
                tgrow := t.tgrow, tgdup := t.tgdup })

/-- R148: the closed form of 64 PIX commands that start with PIXCNT = 0 and clear accumulators. -/
def Obligations.SixtyFourPixelsEncodeATile : Prop :=
  ∀ (s : State) (p : List Pixel), s.phase = .load → s.c = 1 → s.r = 0 → s.acc = Vector.replicate 8 0x0000#16 →
    s.nt.toNat < 1024 → p.length = 64 →
    ∃ t, execAll (p.map Instr.pix) s = .next t ∧ readDup t s.nt.toNat = some 0#1 ∧
      ∀ r < 8, ∃ row, readRow t s.nt.toNat r = some row ∧
        row.toNat =
          ((List.range 8).map fun x => ((p.getD (8 * r + x) 0#2).getLsbD 0).toNat <<< (15 - x)).sum +
            ((List.range 8).map fun x => ((p.getD (8 * r + x) 0#2).getLsbD 1).toNat <<< (7 - x)).sum ∧
        ∀ x < 8, row.getLsbD (15 - x) = (p.getD (8 * r + x) 0#2).getLsbD 0 ∧
          row.getLsbD (7 - x) = (p.getD (8 * r + x) 0#2).getLsbD 1

/-- R149 with the decoder of R150: the 16 bytes of the tile that 64 pixels make decode to those pixels, so two lists of pixels that
make the same rows are the same. -/
def Obligations.EncodedTileRoundTrips : Prop :=
  ∀ (s : State), s.phase = .load → s.c = 1 → s.r = 0 → s.acc = Vector.replicate 8 0x0000#16 → s.nt.toNat < 1024 →
    (∀ p : List Pixel, p.length = 64 →
        ∃ t rows, execAll (p.map Instr.pix) s = .next t ∧ readTile t s.nt.toNat = some rows ∧ (tileBytes rows).length = 16 ∧
          ∀ r < 8, ∀ x < 8, decodePixel (tileBytes rows) r x = p.getD (8 * r + x) 0#2) ∧
      ∀ (p q : List Pixel) (t u : State), p.length = 64 → q.length = 64 → execAll (p.map Instr.pix) s = .next t →
        execAll (q.map Instr.pix) s = .next u → readTile t s.nt.toNat = readTile u s.nt.toNat → p = q

/-- R140: the rows committed for a tile depend on its 64 pixels alone, whatever else the two states hold: not on earlier tiles, TW, TH,
NT or SEL. -/
def Obligations.TileDependsOnItsPixelsAlone : Prop :=
  ∀ (s u : State) (p : List Pixel), p.length = 64 → s.phase = .load → u.phase = .load → s.c = 1 → u.c = 1 → s.r = 0 → u.r = 0 →
    s.acc = Vector.replicate 8 0x0000#16 → u.acc = Vector.replicate 8 0x0000#16 → s.nt.toNat < 1024 → u.nt.toNat < 1024 →
    ∃ s' u', execAll (p.map Instr.pix) s = .next s' ∧ execAll (p.map Instr.pix) u = .next u' ∧
      ∀ r < 8, readRow s' s.nt.toNat r = readRow u' u.nt.toNat r ∧ (readRow s' s.nt.toNat r).isSome = true

/-- R145, R146: PIX in IDLE or REDUCED raises ERR_SEQ, in READY ERR_RANGE, and changes nothing but the fault entry. -/
def Obligations.PixOutOfPhaseFaults : Prop :=
  ∀ (s : State) (v : Pixel),
    ((s.phase = .idle ∨ s.phase = .reduced) → exec (.pix v) s = .next { s with errcode := .seq, phase := .fault }) ∧
      (s.phase = .ready → exec (.pix v) s = .next { s with errcode := .range, phase := .fault })

/-- R144: a PIX that answers a next state writes no flag but `TG[NT].dup <- 0` at a commit, and none of WARN, RDONE, UNIQUE, DUPCNT,
SEL, TW, TH, IMAP; it emits no beat. Frame: ACC rows other than R are unchanged or cleared by a commit; TGROW outside tile NT and
TGDUP outside NT are unchanged, and all of both where no tile is committed. -/
def Obligations.PixFrame : Prop :=
  ∀ (s t : State) (v : Pixel), exec (.pix v) s = .next t →
    t.warn = s.warn ∧ t.rdone = s.rdone ∧ t.unique = s.unique ∧ t.dupcnt = s.dupcnt ∧ t.sel = s.sel ∧ t.tw = s.tw ∧
      t.th = s.th ∧ t.imap = s.imap ∧ t.out = s.out ∧ t.port = s.port ∧ t.reads = s.reads ∧ t.draws = s.draws ∧
      (t.errcode = s.errcode ∨ t.phase = .fault) ∧
      (∀ a, (∀ r < 8, a ≠ rowAddr s.nt.toNat r) → memRead t.tgrow a = memRead s.tgrow a) ∧
      (∀ a, a ≠ s.nt.toNat → memRead t.tgdup a = memRead s.tgdup a) ∧
      (memRead t.tgdup s.nt.toNat = memRead s.tgdup s.nt.toNat ∨ memRead t.tgdup s.nt.toNat = some 0#1) ∧
      (t.nt = s.nt → (∀ a, memRead t.tgrow a = memRead s.tgrow a) ∧ (∀ a, memRead t.tgdup a = memRead s.tgdup a) ∧
        ∀ q : BitVec 3, q ≠ s.r → accRead t.acc q = accRead s.acc q) ∧
      (t.nt ≠ s.nt → t.acc = Vector.replicate 8 0x0000#16)

/-- R151 (h): no command but START changes the rows of a committed tile. -/
def Obligations.CommittedRowsNeverChange : Prop :=
  ∀ (i : Instr) (s t : State), (∀ th tw, i ≠ .start th tw) → exec i s = .next t → ∀ k < s.nt.toNat, ∀ r < 8,
    readRow t k r = readRow s k r

/-! ### The DuplicateReducer (42_duplicate_reducer.md) -/

/-- R168: REDUCE in READY leaves the closed form for all `t < N`: `dup` iff `first(t) < t`, `IM[t]` the number of canonical tiles
before `first(t)`, and the two counts; UNIQUE is also the number of distinct tile contents. -/
def Obligations.ReduceComputesTheClosedForm : Prop :=
  ∀ s : State, Inv s → s.phase = .ready →
    ∃ t tiles, exec .reduce s = .next t ∧ readTiles s (tileCount s) = some tiles ∧
      (∀ k < tileCount s, ∃ d, readDup t k = some d ∧ (d = 1#1 ↔ firstOf tiles k < k)) ∧
      (∀ k < tileCount s, ∃ e, readEntry t k = some e ∧ e.toNat = slotOf tiles k) ∧
      t.dupcnt.toNat = duplicatesOf tiles (tileCount s) ∧ t.unique.toNat = uniqueOf tiles (tileCount s) ∧
      t.unique.toNat = ((Finset.range (tileCount s)).image (readTile s)).card

/-- R165, the rest of what REDUCE leaves: the counts add up, WARN is the strict comparison with 256, RDONE = 1, PHASE = REDUCED.
Frame: TGROW, ACC, C, R, TW, TH, NT, SEL, ERRCODE and the elements of TGDUP and IMAP at N and above are unchanged; no beat. -/
def Obligations.ReduceSetsCountsFlagsAndFrame : Prop :=
  ∀ s : State, Inv s → s.phase = .ready →
    ∃ t, exec .reduce s = .next t ∧ t.unique.toNat + t.dupcnt.toNat = tileCount s ∧
      t.warn = decide (t.unique.toNat > 256) ∧ t.rdone = true ∧ t.phase = .reduced ∧ (∀ a, memRead t.tgrow a = memRead s.tgrow a) ∧
      (∀ a, tileCount s ≤ a → memRead t.tgdup a = memRead s.tgdup a ∧ memRead t.imap a = memRead s.imap a) ∧
      t = { s with
            unique := t.unique, dupcnt := t.dupcnt, warn := t.warn, rdone := true, phase := .reduced, tgdup := t.tgdup
            imap := t.imap }

/-- R171: the properties of the result. Tiles of equal rows share an entry and the later is flagged; a tile is unflagged exactly when
it is the first with its rows; the counts add up to N; the entries are exactly 0 to UNIQUE - 1; and the canonical tiles in scan order
have the entries 0, 1, 2, ... -/
def Obligations.ReduceResultProperties : Prop :=
  ∀ s t : State, Inv s → s.phase = .ready → exec .reduce s = .next t →
    (∀ i j, i < j → j < tileCount s → readTile s i = readTile s j →
        readEntry t i = readEntry t j ∧ readDup t j = some 1#1) ∧
      (∀ i < tileCount s, readDup t i = some 0#1 ↔ ∀ j < i, readTile s j ≠ readTile s i) ∧
      t.unique.toNat + t.dupcnt.toNat = tileCount s ∧
      (∀ e : TileIdx, (∃ i < tileCount s, readEntry t i = some e) ↔ e.toNat < t.unique.toNat) ∧
      ∀ i < tileCount s, readDup t i = some 0#1 →
        ∃ e, readEntry t i = some e ∧ e.toNat = (List.range i).countP fun j => decide (readDup t j = some 0#1)

/-- R169: REDUCE in IDLE, LOAD or REDUCED raises ERR_SEQ and changes nothing but the fault entry; it raises no other fault. -/
def Obligations.ReduceOutOfPhaseFaults : Prop :=
  ∀ s : State,
    ((s.phase = .idle ∨ s.phase = .load ∨ s.phase = .reduced) →
        exec .reduce s = .next { s with errcode := .seq, phase := .fault }) ∧
      ∀ t, s.phase ≠ .fault → exec .reduce s = .next t → t.phase = .fault → t.errcode = .seq

/-- R270: while an export is REDUCED no command word but START, legal or illegal, changes the rows, the flags, the map, UNIQUE, DUPCNT
or WARN. -/
def Obligations.ResultsAreFinal : Prop :=
  ∀ (s t : State) (w : Word) (rest : List Txn), s.phase = .reduced → s.port = .command w :: rest →
    (∀ th tw, decode w ≠ .ok (.start th tw)) → step s = .next t →
    (∀ k r, readRow t k r = readRow s k r) ∧ (∀ k, readDup t k = readDup s k) ∧ (∀ k, readEntry t k = readEntry s k) ∧
      t.unique = s.unique ∧ t.dupcnt = s.dupcnt ∧ t.warn = s.warn ∧ t.rdone = s.rdone

/-! ### The StreamEmitter (43_stream_emitter.md) -/

/-- R192: EMITT in REDUCED sends, for each unflagged tile in scan order, the 16 bytes of its rows, each row's high byte first; `brk`
on every 16th beat, `last` on the 16th beat of tile number UNIQUE; `kind` and `ovf` 0. Only the output grows (R199). -/
def Obligations.EmittSendsTheCanonicalTiles : Prop :=
  ∀ s : State, Inv s → s.phase = .reduced →
    ∃ beats, exec .emitt s = .next { s with out := s.out ++ beats } ∧
      let canonical := (List.range (tileCount s)).filter fun t => decide (readDup s t = some 0#1)
      beats.length = 16 * canonical.length ∧
        ∀ k < canonical.length, ∀ j < 16, ∃ row, readRow s (canonical.getD k 0) (j / 2) = some row ∧
          beats[16 * k + j]? =
            some ⟨if j % 2 = 0 then row.extractLsb' 8 8 else row.extractLsb' 0 8, decide (j = 15),
              decide (j = 15 ∧ k + 1 = s.unique.toNat), false, false⟩

/-- R194 (a): EMITT sends exactly 16 * UNIQUE beats, at least 16, and `last` on the final one alone. -/
def Obligations.EmittSendsSixteenBeatsPerUniqueTile : Prop :=
  ∀ s : State, Inv s → ReducedInv s → s.phase = .reduced →
    ∃ beats, exec .emitt s = .next { s with out := s.out ++ beats } ∧ beats.length = 16 * s.unique.toNat ∧ 16 ≤ beats.length ∧
      ∀ (k : Nat) (b : Beat), beats[k]? = some b → (b.last = true ↔ k + 1 = beats.length)

/-- R195: EMITM in REDUCED sends one beat per map entry in tile order: the low 8 bits, `brk` at the end of a grid row, `last` on entry
N - 1, `kind` 1, `ovf` iff the entry is 256 or more. Only the output grows (R199). -/
def Obligations.EmitmSendsTheIndexMap : Prop :=
  ∀ s : State, Inv s → s.phase = .reduced →
    ∃ beats, exec .emitm s = .next { s with out := s.out ++ beats } ∧ beats.length = tileCount s ∧
      ∀ t < tileCount s, ∃ e, readEntry s t = some e ∧
        beats[t]? =
          some ⟨e.extractLsb' 0 8, decide ((t + 1) % s.tw.toNat = 0), decide (t = tileCount s - 1), true, decide (e.toNat ≥ 256)⟩

/-- R193, R196: EMITT and EMITM in IDLE, LOAD or READY raise ERR_SEQ, emit no beat and change nothing but the fault entry; they raise
no other fault. -/
def Obligations.EmitOutOfPhaseFaults : Prop :=
  ∀ (s : State) (i : Instr), (i = .emitt ∨ i = .emitm) →
    ((s.phase = .idle ∨ s.phase = .load ∨ s.phase = .ready) → exec i s = .next { s with errcode := .seq, phase := .fault }) ∧
      ∀ t, s.phase ≠ .fault → exec i s = .next t → t.phase = .fault → t.errcode = .seq

/-- R199: an EMITT or EMITM in REDUCED changes no state element of the block, and issued again, after any other output, it sends the
same beats. -/
def Obligations.EmittingAgainSendsTheSameBeats : Prop :=
  ∀ (s t : State) (i : Instr), (i = .emitt ∨ i = .emitm) → s.phase = .reduced → exec i s = .next t →
    ∃ beats, t = { s with out := s.out ++ beats } ∧
      ∀ out, exec i { s with out := out } = .next { s with out := out ++ beats }

/-- R191, R76: a command only appends to what was emitted before, and only EMITT and EMITM in REDUCED emit, with `kind` telling them
apart. -/
def Obligations.OnlyEmittAndEmitmEmit : Prop :=
  ∀ (i : Instr) (s t : State), exec i s = .next t →
    ∃ beats, t.out = s.out ++ beats ∧ (beats ≠ [] → s.phase = .reduced ∧ (i = .emitt ∨ i = .emitm)) ∧
      ∀ b ∈ beats, b.kind = decide (i = .emitm)

/-- R197: the map stream has a beat with `ovf` exactly when WARN is set, that is when UNIQUE is 257 or more. -/
def Obligations.MapOverflowsExactlyUnderWarning : Prop :=
  ∀ (s : State), Inv s → ReducedInv s → s.phase = .reduced →
    ∃ beats, exec .emitm s = .next { s with out := s.out ++ beats } ∧ ((∃ b ∈ beats, b.ovf = true) ↔ s.warn = true) ∧
      (s.warn = true ↔ 257 ≤ s.unique.toNat)

/-- R194 (b): the map reconstructs the image from the emitted tiles: for every tile of the grid, the 16 bytes EMITT sends at position
`IM[t]` are the bytes of tile `t`'s rows. -/
def Obligations.MapPointsAtTheEmittedTile : Prop :=
  ∀ s : State, Inv s → ReducedInv s → s.phase = .reduced →
    ∃ beats, exec .emitt s = .next { s with out := s.out ++ beats } ∧
      ∀ t < tileCount s, ∃ e rows, readEntry s t = some e ∧ readTile s t = some rows ∧
        ((beats.map Beat.d).drop (16 * e.toNat)).take 16 = tileBytes rows

/-- R201 with R200: as text the tile stream is the UNIQUE blocks of 16 tokens with one separator between two of them and none after
the last; R202: the map stream is the TH grid rows of TW tokens, each followed by a line break. The empty delimiter between tokens,
tokens without a prefix, and two digits for an entry above 255 too are the model's choice, which R203 leaves open
(notes/assumptions/11, notes/assumptions/6). -/
def Obligations.TextHasOneSeparatorBetweenTiles : Prop :=
  ∀ (s : State) (mark : List Char), Inv s → ReducedInv s → s.phase = .reduced →
    ∃ tileBeats mapBeats, exec .emitt s = .next { s with out := s.out ++ tileBeats } ∧
      exec .emitm s = .next { s with out := s.out ++ mapBeats } ∧
      tileBeats.length = 16 * s.unique.toNat ∧ mapBeats.length = s.tw.toNat * s.th.toNat ∧
      renderTiles mark [] tileBeats =
        List.intercalate mark ((List.range s.unique.toNat).map fun k =>
          (((tileBeats.map Beat.d).drop (16 * k)).take 16).flatMap hexToken) ∧
      renderMap mark [] mapBeats =
        (List.range s.th.toNat).flatMap fun g =>
          (((mapBeats.map Beat.d).drop (s.tw.toNat * g)).take s.tw.toNat).flatMap hexToken ++ mark

/-! ### Faults (60_exceptions.md) -/

/-- R226: a command word that brings the block from another phase into FAULT, START apart, writes ERRCODE and PHASE and nothing else;
a START does so after its clearing step. -/
def Obligations.FaultEntryWritesErrcodeAndPhase : Prop :=
  ∀ (s t : State) (w : Word) (rest : List Txn), s.phase ≠ .fault → s.port = .command w :: rest → step s = .next t →
    t.phase = .fault →
    t.errcode ≠ .none ∧
      ((∀ th tw, decode w ≠ .ok (.start th tw)) → t = { s with port := rest, errcode := t.errcode, phase := .fault }) ∧
      (∀ th tw, decode w = .ok (.start th tw) →
        t = { s with
              port := rest
              acc := Vector.replicate 8 0x0000#16, c := 1, r := 0, tw := 0, th := 0, nt := 0, unique := 0, dupcnt := 0
              sel := 0, warn := false, rdone := false, errcode := .range, phase := .fault })

/-- R227: in FAULT every command word but a START, legal or not, is dropped. -/
def Obligations.FaultDropsEverythingButStart : Prop :=
  ∀ (s : State) (w : Word) (rest : List Txn), s.phase = .fault → s.port = .command w :: rest →
    (∀ th tw, decode w ≠ .ok (.start th tw)) → step s = .next { s with port := rest }

/-- R228: the only ways out of FAULT are a START with legal dimensions and a hardware reset, and both clear ERRCODE; a START is
executed in FAULT, discards the faulted export, and enters LOAD, or FAULT again with ERR_RANGE. -/
def Obligations.OnlyStartOrResetLeavesFault : Prop :=
  ∀ s t : State, s.phase = .fault → step s = .next t →
    (t.phase ≠ .fault →
        t.errcode = .none ∧
          ((∃ w rest th tw, s.port = .command w :: rest ∧ decode w = .ok (.start th tw) ∧ 1 ≤ tw.toNat ∧ tw.toNat ≤ 32 ∧
              1 ≤ th.toNat ∧ th.toNat ≤ 32 ∧ t.phase = .load) ∨
            (∃ rest, s.port = .hardReset :: rest ∧ t.phase = .idle) ∨
            ∃ w k rest, s.port = .resetDuring w k :: rest ∧ t.phase = .idle)) ∧
      ∀ w rest th tw, s.port = .command w :: rest → decode w = .ok (.start th tw) →
        t.nt = 0 ∧ t.rdone = false ∧
          (if 1 ≤ tw.toNat ∧ tw.toNat ≤ 32 ∧ 1 ≤ th.toNat ∧ th.toNat ≤ 32 then t.phase = .load ∧ t.errcode = .none
            else t.phase = .fault ∧ t.errcode = .range)

/-- The phase machine of 10_state.md R27: a command changes PHASE only along these transitions, START by its dimensions, and another
command into FAULT only from a phase where it is not legal (30_encoding.md R108). -/
def Obligations.PhaseMachineTransitions : Prop :=
  ∀ (i : Instr) (s t : State), exec i s = .next t → t.phase ≠ s.phase →
    (∃ th tw, i = .start th tw ∧
        if 1 ≤ tw.toNat ∧ tw.toNat ≤ 32 ∧ 1 ≤ th.toNat ∧ th.toNat ≤ 32 then t.phase = .load else t.phase = .fault) ∨
      (s.phase = .load ∧ (∃ v, i = .pix v) ∧ t.phase = .ready ∧ t.nt.toNat = tileCount s) ∨
      (s.phase = .ready ∧ i = .reduce ∧ t.phase = .reduced) ∨
      (s.phase ≠ .fault ∧ t.phase = .fault ∧
        (((∃ v, i = .pix v) ∧ s.phase ≠ .load) ∨ (i = .reduce ∧ s.phase ≠ .ready) ∨
          ((i = .emitt ∨ i = .emitm) ∧ s.phase ≠ .reduced)))

/-- Where the model stops: a commit or a REDUCE beyond the 1024 tiles of the store (R32 to R34), and a command that would read an
element below N that holds no value (R35). The stops, and the order in which a command checks for them, are the model's choice
(notes/assumptions/2). None of these states has the invariant, which holds at reset and which every step keeps, so no run from reset
reaches one. -/
def Obligations.StopsOutsideEveryRun : Prop :=
  (∀ (s : State) (v : Pixel), s.phase = .load → 8 ≤ s.c.toNat → s.r.toNat = 7 → 1024 ≤ s.nt.toNat →
      exec (.pix v) s = .fault (.noSuchElement .tgrow) ∧ ¬ Inv s) ∧
    (∀ s : State, s.phase = .ready → 1024 < tileCount s → exec .reduce s = .fault (.noSuchElement .imap) ∧ ¬ Inv s) ∧
    (∀ (s : State) (k r : Nat), k < tileCount s → r < 8 → readRow s k r = none →
      (s.phase = .ready → tileCount s ≤ 1024 → exec .reduce s = .fault (.valuelessElement .tgrow) ∧ ¬ Inv s) ∧
        (s.phase = .reduced → (∀ j < tileCount s, readDup s j ≠ none) →
          exec .emitt s = .fault (.valuelessElement .tgrow) ∧ ¬ Inv s)) ∧
    (∀ (s : State) (k : Nat), k < tileCount s → readDup s k = none →
      (s.phase = .ready → tileCount s ≤ 1024 → (∀ j < tileCount s, ∀ r < 8, readRow s j r ≠ none) →
          exec .reduce s = .fault (.valuelessElement .tgdup) ∧ ¬ Inv s) ∧
        (s.phase = .reduced → exec .emitt s = .fault (.valuelessElement .tgdup) ∧ ¬ Inv s)) ∧
    ∀ (s : State) (k : Nat), k < tileCount s → readEntry s k = none → s.phase = .reduced →
      exec .emitm s = .fault (.valuelessElement .imap) ∧ ¬ Inv s

/-! ### The register window (10_state.md section 7) -/

/-- R37: the fields of STATUS, the word read at address 0x00: bits 2:0 PHASE, bit 3 WARN, bits 5:4 ERRCODE, bit 6 RDONE, bits 15:7
zero, with the encodings of R27 and R30. -/
def Obligations.StatusFields : Prop :=
  ∀ (s : State) (rest : List Txn), s.port = .read 0x00#5 :: rest →
    ∃ data : Word, step s = .next { s with port := rest, reads := s.reads ++ [⟨0x00#5, data⟩] } ∧
      (data.extractLsb' 0 3).toNat =
        (match s.phase with | .idle => 0 | .load => 1 | .ready => 2 | .reduced => 3 | .fault => 4) ∧
      data.getLsbD 3 = s.warn ∧
      (data.extractLsb' 4 2).toNat = (match s.errcode with | .none => 0 | .illegal => 1 | .range => 2 | .seq => 3) ∧
      data.getLsbD 6 = s.rdone ∧ data.extractLsb' 7 9 = 0#9

/-- R36: a window read changes no state of the block, at any address, in any phase. -/
def Obligations.WindowReadsChangeNoState : Prop :=
  ∀ (s : State) (a : WinAddr) (rest : List Txn), s.port = .read a :: rest →
    ∃ data draws, step s = .next { s with port := rest, reads := s.reads ++ [⟨a, data⟩], draws := draws }

/-- R38 to R41, R43, R46: what the addresses of the scalar registers, the reserved ones and the accumulators return. With the
invariant UNIQUE and DUPCNT read 0 while RDONE = 0, and the accumulators read 0 when PIXCNT = 0. -/
def Obligations.WindowShowsTheRegisters : Prop :=
  ∀ (s : State) (a : WinAddr) (rest : List Txn), s.port = .read a :: rest →
    a.toNat < 0x08 ∨ (0x0A ≤ a.toNat ∧ a.toNat ≤ 0x0F) ∨ 0x18 ≤ a.toNat →
    ∃ data : Word, step s = .next { s with port := rest, reads := s.reads ++ [⟨a, data⟩] } ∧
      (a.toNat = 0x00 → data = statusWord s) ∧ (a.toNat = 0x01 → data.toNat = s.tw.toNat) ∧
      (a.toNat = 0x02 → data.toNat = s.th.toNat) ∧ (a.toNat = 0x03 → data.toNat = s.nt.toNat) ∧
      (a.toNat = 0x04 → data.toNat = 8 * s.r.toNat + (s.c.toNat - 1)) ∧ (a.toNat = 0x05 → data.toNat = s.unique.toNat) ∧
      (a.toNat = 0x06 → data.toNat = s.dupcnt.toNat) ∧ (a.toNat = 0x07 → data.toNat = s.sel.toNat) ∧
      (0x0A ≤ a.toNat ∧ a.toNat ≤ 0x0F → data = 0x0000#16) ∧
      (∀ r < 8, a.toNat = 0x18 + r → data = accRead s.acc (BitVec.ofNat 3 r)) ∧
      (Inv s → ((a.toNat = 0x05 ∨ a.toNat = 0x06) ∧ s.rdone = false) ∨ (0x18 ≤ a.toNat ∧ s.r = 0 ∧ s.c = 1) → data = 0x0000#16)

/-- R42, R45: what SELIDX, SELDUP and SELROWr return: the element of tile SEL, zero-extended, where it holds a value; a fresh UNSPEC
value of the field's width, the bits above it 0, where it does not. With the invariant SELIDX holds no value exactly when RDONE = 0 or
SEL >= N, and SELDUP and SELROWr exactly when SEL >= NT. -/
def Obligations.WindowShowsTheSelectedTile : Prop :=
  ∀ (s : State) (a : WinAddr) (rest : List Txn), s.port = .read a :: rest →
    let shows := fun (element : Option Nat) (width : Nat) => ∃ data : Word,
      match element with
      | some v => data.toNat = v ∧ step s = .next { s with port := rest, reads := s.reads ++ [⟨a, data⟩] }
      | none => data.toNat = (Config.unspec s.draws).toNat % 2 ^ width ∧
          step s = .next { s with port := rest, reads := s.reads ++ [⟨a, data⟩], draws := s.draws + 1 }
    (a.toNat = 0x08 → shows ((readEntry s s.sel.toNat).map BitVec.toNat) 10) ∧
      (a.toNat = 0x09 → shows ((readDup s s.sel.toNat).map BitVec.toNat) 1) ∧
      (∀ r < 8, a.toNat = 0x10 + r → shows ((readRow s s.sel.toNat r).map BitVec.toNat) 16) ∧
      (Inv s →
        (readEntry s s.sel.toNat = none ↔ s.rdone = false ∨ tileCount s ≤ s.sel.toNat) ∧
          (readDup s s.sel.toNat = none ↔ s.nt.toNat ≤ s.sel.toNat) ∧
          ∀ r < 8, readRow s s.sel.toNat r = none ↔ s.nt.toNat ≤ s.sel.toNat)

/-- R35, R48, R279: two states that differ only in contents that hold no value take every transaction alike: the same kind of outcome,
the same beats and reads, and states that again differ only there. No command or read observes leftovers of an earlier export. That a read
of a valueless element returns the same data in both is the model's choice, since its draw depends on the counter `draws` alone
(notes/assumptions/4); R45 promises no such agreement. -/
def Obligations.StaleContentsAreNeverObserved : Prop :=
  ∀ s t : State, SameValued s t → OutcomeRel SameValued (step s) (step t)

/-! ### The whole export (70_reset_and_hazards.md R273 to R275) -/

/-- For every image the host may export and from every state, the commands of one export complete; EMITT's bytes and the index map of
the state reconstruct every pixel of the image, EMITM's beats carry the map's low bytes with `ovf` where an entry does not fit (the
spec's decision D20, notes/assumptions/6), where no beat has `ovf` the beats alone reconstruct the image, and UNIQUE counts the
distinct tiles. The order of the host's commands is that of notes/assumptions/12. -/
def Obligations.ExportReconstructsTheImage : Prop :=
  ∀ (img : Image) (s : State), img.valid = true →
    ∃ t tileBeats mapBeats, execAll img.exportCommands s = .next t ∧ t.phase = .reduced ∧
      t.out = s.out ++ tileBeats ++ mapBeats ∧ mapBeats.length = img.tileWidth * img.tileHeight ∧
      t.unique.toNat = ((Finset.range (img.tileWidth * img.tileHeight)).image img.tile).card ∧
      tileBeats.length = 16 * t.unique.toNat ∧
      (∀ k < img.tileWidth * img.tileHeight, ∃ e b, readEntry t k = some e ∧ mapBeats[k]? = some b ∧ b.d = e.extractLsb' 0 8 ∧
        b.ovf = decide (256 ≤ e.toNat) ∧
        ∀ r < 8, ∀ x < 8,
          decodePixel ((tileBeats.map Beat.d).drop (16 * e.toNat)) r x =
            img.pixel (8 * (k % img.tileWidth) + x) (8 * (k / img.tileWidth) + r)) ∧
      ((∀ b ∈ mapBeats, b.ovf = false) →
        ∀ k < img.tileWidth * img.tileHeight, ∃ b, mapBeats[k]? = some b ∧
          ∀ r < 8, ∀ x < 8,
            decodePixel ((tileBeats.map Beat.d).drop (16 * b.d.toNat)) r x =
              img.pixel (8 * (k % img.tileWidth) + x) (8 * (k / img.tileWidth) + r))
end

