-- ==== Sys2Proof/Laws/Memory.lean ====
section
/-! SUPPORT. The laws of the element memories: read after write, writing leaves every other element alone, and every write keeps
the canonical form. -/

namespace Sys2Proof.Machine

variable {w : Nat}

@[simp] theorem memRead_nil (a : Nat) : memRead ([] : Memory w) a = none := rfl

theorem memRead_memWrite (m : Memory w) (a b : Nat) (v : BitVec w) :
    memRead (memWrite m a v) b = if b = a then some v else memRead m b := by
  induction m with
  | nil => simp [memWrite, memRead]
  | cons e rest ih =>
    obtain ⟨k, u⟩ := e
    simp only [memWrite]
    split
    · simp [memRead]
    · split
      · subst_vars; simp only [memRead]; split <;> simp_all
      · simp only [memRead, ih]
        split
        · have : b ≠ a := by omega
          simp [this]
        · rfl

@[simp] theorem memRead_memWrite_same (m : Memory w) (a : Nat) (v : BitVec w) : memRead (memWrite m a v) a = some v := by
  simp [memRead_memWrite]

theorem memRead_memWrite_other {a b : Nat} (m : Memory w) (v : BitVec w) (h : b ≠ a) :
    memRead (memWrite m a v) b = memRead m b := by
  simp [memRead_memWrite, h]

theorem memRead_memWriteRun (m : Memory w) (a b : Nat) (vs : List (BitVec w)) :
    memRead (memWriteRun m a vs) b = if a ≤ b ∧ b < a + vs.length then vs[b - a]? else memRead m b := by
  induction vs generalizing m a with
  | nil => simp only [memWriteRun, List.length_nil]; split <;> first | omega | rfl
  | cons v vs ih =>
    simp only [memWriteRun, ih, memRead_memWrite, List.length_cons]
    by_cases h1 : b = a
    · subst h1; simp
    · by_cases h2 : a + 1 ≤ b ∧ b < a + 1 + vs.length
      · have h3 : a ≤ b ∧ b < a + (vs.length + 1) := by omega
        have h4 : b - a = (b - (a + 1)) + 1 := by omega
        simp [h2, h3, h4]
      · have h3 : ¬ (a ≤ b ∧ b < a + (vs.length + 1)) := by omega
        simp only [h2, h3, h1, if_false]

theorem memRead_memWriteRun_outside {m : Memory w} {a b : Nat} {vs : List (BitVec w)} (h : b < a ∨ a + vs.length ≤ b) :
    memRead (memWriteRun m a vs) b = memRead m b := by
  rw [memRead_memWriteRun, if_neg (by omega)]

theorem memRead_memWriteRun_inside {m : Memory w} {a i : Nat} {vs : List (BitVec w)} (h : i < vs.length) :
    memRead (memWriteRun m a vs) (a + i) = some vs[i] := by
  rw [memRead_memWriteRun, if_pos (by omega)]
  simp [h]

theorem mem_keys_memWrite {m : Memory w} {a b : Nat} {v : BitVec w} :
    b ∈ (memWrite m a v).map Prod.fst → b = a ∨ b ∈ m.map Prod.fst := by
  induction m with
  | nil => simp [memWrite]
  | cons e rest ih =>
    obtain ⟨k, u⟩ := e
    simp only [memWrite]
    split
    · simp
    · split
      · simp only [List.map_cons, List.mem_cons]
        rintro (h | h)
        · exact .inl h
        · exact .inr (.inr h)
      · simp only [List.map_cons, List.mem_cons]
        intro h
        rcases h with h | h
        · exact .inr (.inl h)
        · rcases ih h with h | h
          · exact .inl h
          · exact .inr (.inr h)

theorem memWrite_wf {m : Memory w} {size a : Nat} {v : BitVec w} (hm : Memory.wf size m) (ha : a < size) :
    Memory.wf size (memWrite m a v) := by
  constructor
  · have h := hm.1
    clear hm
    induction m with
    | nil => simp [memWrite]
    | cons e rest ih =>
      obtain ⟨k, u⟩ := e
      simp only [memWrite]
      simp only [List.map_cons, List.pairwise_cons] at h
      split
      · simp only [List.map_cons, List.pairwise_cons, List.mem_cons]
        refine ⟨?_, h.1, h.2⟩
        rintro b (rfl | hb)
        · assumption
        · have := h.1 b hb; omega
      · split
        · simp only [List.map_cons, List.pairwise_cons]
          subst_vars; exact h
        · simp only [List.map_cons, List.pairwise_cons]
          refine ⟨fun b hb => ?_, ih h.2⟩
          rcases mem_keys_memWrite hb with rfl | hb
          · omega
          · exact h.1 b hb
  · intro b hb
    rcases mem_keys_memWrite hb with rfl | hb
    · exact ha
    · exact hm.2 b hb

theorem memWriteRun_wf {m : Memory w} {size a : Nat} {vs : List (BitVec w)} (hm : Memory.wf size m)
    (ha : a + vs.length ≤ size) : Memory.wf size (memWriteRun m a vs) := by
  induction vs generalizing m a with
  | nil => exact hm
  | cons v vs ih =>
    simp only [List.length_cons] at ha
    exact ih (memWrite_wf hm (by omega)) (by omega)

theorem wf_nil (size : Nat) : Memory.wf size ([] : Memory w) :=
  ⟨List.Pairwise.nil, fun _ h => absurd h List.not_mem_nil⟩

end Sys2Proof.Machine
end

