-- ==== Sys2Proof/Laws/State.lean ====
section
/-! SUPPORT. One lemma per field per shared update of State, true by rfl: no later proof unfolds a record update. -/

namespace Sys2Proof.Machine

/-! `raiseFault` -/

@[simp] theorem raiseFault_acc (code : ErrCode) (s : State) : (raiseFault code s).acc = s.acc := rfl
@[simp] theorem raiseFault_c (code : ErrCode) (s : State) : (raiseFault code s).c = s.c := rfl
@[simp] theorem raiseFault_r (code : ErrCode) (s : State) : (raiseFault code s).r = s.r := rfl
@[simp] theorem raiseFault_tw (code : ErrCode) (s : State) : (raiseFault code s).tw = s.tw := rfl
@[simp] theorem raiseFault_th (code : ErrCode) (s : State) : (raiseFault code s).th = s.th := rfl
@[simp] theorem raiseFault_nt (code : ErrCode) (s : State) : (raiseFault code s).nt = s.nt := rfl
@[simp] theorem raiseFault_unique (code : ErrCode) (s : State) : (raiseFault code s).unique = s.unique := rfl
@[simp] theorem raiseFault_dupcnt (code : ErrCode) (s : State) : (raiseFault code s).dupcnt = s.dupcnt := rfl
@[simp] theorem raiseFault_phase (code : ErrCode) (s : State) : (raiseFault code s).phase = .fault := rfl
@[simp] theorem raiseFault_warn (code : ErrCode) (s : State) : (raiseFault code s).warn = s.warn := rfl
@[simp] theorem raiseFault_rdone (code : ErrCode) (s : State) : (raiseFault code s).rdone = s.rdone := rfl
@[simp] theorem raiseFault_errcode (code : ErrCode) (s : State) : (raiseFault code s).errcode = code := rfl
@[simp] theorem raiseFault_sel (code : ErrCode) (s : State) : (raiseFault code s).sel = s.sel := rfl
@[simp] theorem raiseFault_tgrow (code : ErrCode) (s : State) : (raiseFault code s).tgrow = s.tgrow := rfl
@[simp] theorem raiseFault_tgdup (code : ErrCode) (s : State) : (raiseFault code s).tgdup = s.tgdup := rfl
@[simp] theorem raiseFault_imap (code : ErrCode) (s : State) : (raiseFault code s).imap = s.imap := rfl
@[simp] theorem raiseFault_port (code : ErrCode) (s : State) : (raiseFault code s).port = s.port := rfl
@[simp] theorem raiseFault_out (code : ErrCode) (s : State) : (raiseFault code s).out = s.out := rfl
@[simp] theorem raiseFault_reads (code : ErrCode) (s : State) : (raiseFault code s).reads = s.reads := rfl
@[simp] theorem raiseFault_draws (code : ErrCode) (s : State) : (raiseFault code s).draws = s.draws := rfl

/-! `clearExport` -/

@[simp] theorem clearExport_acc (s : State) : (clearExport s).acc = accZero := rfl
@[simp] theorem clearExport_c (s : State) : (clearExport s).c = 1 := rfl
@[simp] theorem clearExport_r (s : State) : (clearExport s).r = 0 := rfl
@[simp] theorem clearExport_tw (s : State) : (clearExport s).tw = s.tw := rfl
@[simp] theorem clearExport_th (s : State) : (clearExport s).th = s.th := rfl
@[simp] theorem clearExport_nt (s : State) : (clearExport s).nt = 0 := rfl
@[simp] theorem clearExport_unique (s : State) : (clearExport s).unique = 0 := rfl
@[simp] theorem clearExport_dupcnt (s : State) : (clearExport s).dupcnt = 0 := rfl
@[simp] theorem clearExport_phase (s : State) : (clearExport s).phase = s.phase := rfl
@[simp] theorem clearExport_warn (s : State) : (clearExport s).warn = false := rfl
@[simp] theorem clearExport_rdone (s : State) : (clearExport s).rdone = false := rfl
@[simp] theorem clearExport_errcode (s : State) : (clearExport s).errcode = .none := rfl
@[simp] theorem clearExport_sel (s : State) : (clearExport s).sel = 0 := rfl
@[simp] theorem clearExport_tgrow (s : State) : (clearExport s).tgrow = s.tgrow := rfl
@[simp] theorem clearExport_tgdup (s : State) : (clearExport s).tgdup = s.tgdup := rfl
@[simp] theorem clearExport_imap (s : State) : (clearExport s).imap = s.imap := rfl
@[simp] theorem clearExport_port (s : State) : (clearExport s).port = s.port := rfl
@[simp] theorem clearExport_out (s : State) : (clearExport s).out = s.out := rfl
@[simp] theorem clearExport_reads (s : State) : (clearExport s).reads = s.reads := rfl
@[simp] theorem clearExport_draws (s : State) : (clearExport s).draws = s.draws := rfl

/-! `hardwareReset` -/

@[simp] theorem hardwareReset_acc (s : State) : (hardwareReset s).acc = accZero := rfl
@[simp] theorem hardwareReset_c (s : State) : (hardwareReset s).c = 1 := rfl
@[simp] theorem hardwareReset_r (s : State) : (hardwareReset s).r = 0 := rfl
@[simp] theorem hardwareReset_tw (s : State) : (hardwareReset s).tw = 0 := rfl
@[simp] theorem hardwareReset_th (s : State) : (hardwareReset s).th = 0 := rfl
@[simp] theorem hardwareReset_nt (s : State) : (hardwareReset s).nt = 0 := rfl
@[simp] theorem hardwareReset_unique (s : State) : (hardwareReset s).unique = 0 := rfl
@[simp] theorem hardwareReset_dupcnt (s : State) : (hardwareReset s).dupcnt = 0 := rfl
@[simp] theorem hardwareReset_phase (s : State) : (hardwareReset s).phase = .idle := rfl
@[simp] theorem hardwareReset_warn (s : State) : (hardwareReset s).warn = false := rfl
@[simp] theorem hardwareReset_rdone (s : State) : (hardwareReset s).rdone = false := rfl
@[simp] theorem hardwareReset_errcode (s : State) : (hardwareReset s).errcode = .none := rfl
@[simp] theorem hardwareReset_sel (s : State) : (hardwareReset s).sel = 0 := rfl
@[simp] theorem hardwareReset_tgrow (s : State) : (hardwareReset s).tgrow = s.tgrow := rfl
@[simp] theorem hardwareReset_tgdup (s : State) : (hardwareReset s).tgdup = s.tgdup := rfl
@[simp] theorem hardwareReset_imap (s : State) : (hardwareReset s).imap = s.imap := rfl
@[simp] theorem hardwareReset_port (s : State) : (hardwareReset s).port = s.port := rfl
@[simp] theorem hardwareReset_out (s : State) : (hardwareReset s).out = s.out := rfl
@[simp] theorem hardwareReset_reads (s : State) : (hardwareReset s).reads = s.reads := rfl
@[simp] theorem hardwareReset_draws (s : State) : (hardwareReset s).draws = s.draws := rfl

/-! `abandonCommand` -/

@[simp] theorem abandonCommand_acc (k : Nat) (done s : State) : (abandonCommand k done s).acc = accZero := rfl
@[simp] theorem abandonCommand_c (k : Nat) (done s : State) : (abandonCommand k done s).c = 1 := rfl
@[simp] theorem abandonCommand_r (k : Nat) (done s : State) : (abandonCommand k done s).r = 0 := rfl
@[simp] theorem abandonCommand_tw (k : Nat) (done s : State) : (abandonCommand k done s).tw = 0 := rfl
@[simp] theorem abandonCommand_th (k : Nat) (done s : State) : (abandonCommand k done s).th = 0 := rfl
@[simp] theorem abandonCommand_nt (k : Nat) (done s : State) : (abandonCommand k done s).nt = 0 := rfl
@[simp] theorem abandonCommand_unique (k : Nat) (done s : State) : (abandonCommand k done s).unique = 0 := rfl
@[simp] theorem abandonCommand_dupcnt (k : Nat) (done s : State) : (abandonCommand k done s).dupcnt = 0 := rfl
@[simp] theorem abandonCommand_phase (k : Nat) (done s : State) : (abandonCommand k done s).phase = .idle := rfl
@[simp] theorem abandonCommand_warn (k : Nat) (done s : State) : (abandonCommand k done s).warn = false := rfl
@[simp] theorem abandonCommand_rdone (k : Nat) (done s : State) : (abandonCommand k done s).rdone = false := rfl
@[simp] theorem abandonCommand_errcode (k : Nat) (done s : State) : (abandonCommand k done s).errcode = .none := rfl
@[simp] theorem abandonCommand_sel (k : Nat) (done s : State) : (abandonCommand k done s).sel = 0 := rfl
@[simp] theorem abandonCommand_tgrow (k : Nat) (done s : State) : (abandonCommand k done s).tgrow = s.tgrow := rfl
@[simp] theorem abandonCommand_tgdup (k : Nat) (done s : State) : (abandonCommand k done s).tgdup = s.tgdup := rfl
@[simp] theorem abandonCommand_imap (k : Nat) (done s : State) : (abandonCommand k done s).imap = s.imap := rfl
@[simp] theorem abandonCommand_port (k : Nat) (done s : State) : (abandonCommand k done s).port = s.port := rfl
@[simp] theorem abandonCommand_out (k : Nat) (done s : State) : (abandonCommand k done s).out = s.out ++
    (done.out.drop s.out.length).take k := rfl
@[simp] theorem abandonCommand_reads (k : Nat) (done s : State) : (abandonCommand k done s).reads = s.reads := rfl
@[simp] theorem abandonCommand_draws (k : Nat) (done s : State) : (abandonCommand k done s).draws = s.draws := rfl

/-! `emitBeats` -/

@[simp] theorem emitBeats_acc (bs : List Beat) (s : State) : (emitBeats bs s).acc = s.acc := rfl
@[simp] theorem emitBeats_c (bs : List Beat) (s : State) : (emitBeats bs s).c = s.c := rfl
@[simp] theorem emitBeats_r (bs : List Beat) (s : State) : (emitBeats bs s).r = s.r := rfl
@[simp] theorem emitBeats_tw (bs : List Beat) (s : State) : (emitBeats bs s).tw = s.tw := rfl
@[simp] theorem emitBeats_th (bs : List Beat) (s : State) : (emitBeats bs s).th = s.th := rfl
@[simp] theorem emitBeats_nt (bs : List Beat) (s : State) : (emitBeats bs s).nt = s.nt := rfl
@[simp] theorem emitBeats_unique (bs : List Beat) (s : State) : (emitBeats bs s).unique = s.unique := rfl
@[simp] theorem emitBeats_dupcnt (bs : List Beat) (s : State) : (emitBeats bs s).dupcnt = s.dupcnt := rfl
@[simp] theorem emitBeats_phase (bs : List Beat) (s : State) : (emitBeats bs s).phase = s.phase := rfl
@[simp] theorem emitBeats_warn (bs : List Beat) (s : State) : (emitBeats bs s).warn = s.warn := rfl
@[simp] theorem emitBeats_rdone (bs : List Beat) (s : State) : (emitBeats bs s).rdone = s.rdone := rfl
@[simp] theorem emitBeats_errcode (bs : List Beat) (s : State) : (emitBeats bs s).errcode = s.errcode := rfl
@[simp] theorem emitBeats_sel (bs : List Beat) (s : State) : (emitBeats bs s).sel = s.sel := rfl
@[simp] theorem emitBeats_tgrow (bs : List Beat) (s : State) : (emitBeats bs s).tgrow = s.tgrow := rfl
@[simp] theorem emitBeats_tgdup (bs : List Beat) (s : State) : (emitBeats bs s).tgdup = s.tgdup := rfl
@[simp] theorem emitBeats_imap (bs : List Beat) (s : State) : (emitBeats bs s).imap = s.imap := rfl
@[simp] theorem emitBeats_port (bs : List Beat) (s : State) : (emitBeats bs s).port = s.port := rfl
@[simp] theorem emitBeats_out (bs : List Beat) (s : State) : (emitBeats bs s).out = s.out ++ bs := rfl
@[simp] theorem emitBeats_reads (bs : List Beat) (s : State) : (emitBeats bs s).reads = s.reads := rfl
@[simp] theorem emitBeats_draws (bs : List Beat) (s : State) : (emitBeats bs s).draws = s.draws := rfl

/-! `latchGrid` -/

@[simp] theorem latchGrid_acc (th tw : Dim) (s : State) : (latchGrid th tw s).acc = s.acc := rfl
@[simp] theorem latchGrid_c (th tw : Dim) (s : State) : (latchGrid th tw s).c = s.c := rfl
@[simp] theorem latchGrid_r (th tw : Dim) (s : State) : (latchGrid th tw s).r = s.r := rfl
@[simp] theorem latchGrid_tw (th tw : Dim) (s : State) : (latchGrid th tw s).tw = tw := rfl
@[simp] theorem latchGrid_th (th tw : Dim) (s : State) : (latchGrid th tw s).th = th := rfl
@[simp] theorem latchGrid_nt (th tw : Dim) (s : State) : (latchGrid th tw s).nt = s.nt := rfl
@[simp] theorem latchGrid_unique (th tw : Dim) (s : State) : (latchGrid th tw s).unique = s.unique := rfl
@[simp] theorem latchGrid_dupcnt (th tw : Dim) (s : State) : (latchGrid th tw s).dupcnt = s.dupcnt := rfl
@[simp] theorem latchGrid_phase (th tw : Dim) (s : State) : (latchGrid th tw s).phase = .load := rfl
@[simp] theorem latchGrid_warn (th tw : Dim) (s : State) : (latchGrid th tw s).warn = s.warn := rfl
@[simp] theorem latchGrid_rdone (th tw : Dim) (s : State) : (latchGrid th tw s).rdone = s.rdone := rfl
@[simp] theorem latchGrid_errcode (th tw : Dim) (s : State) : (latchGrid th tw s).errcode = s.errcode := rfl
@[simp] theorem latchGrid_sel (th tw : Dim) (s : State) : (latchGrid th tw s).sel = s.sel := rfl
@[simp] theorem latchGrid_tgrow (th tw : Dim) (s : State) : (latchGrid th tw s).tgrow = s.tgrow := rfl
@[simp] theorem latchGrid_tgdup (th tw : Dim) (s : State) : (latchGrid th tw s).tgdup = s.tgdup := rfl
@[simp] theorem latchGrid_imap (th tw : Dim) (s : State) : (latchGrid th tw s).imap = s.imap := rfl
@[simp] theorem latchGrid_port (th tw : Dim) (s : State) : (latchGrid th tw s).port = s.port := rfl
@[simp] theorem latchGrid_out (th tw : Dim) (s : State) : (latchGrid th tw s).out = s.out := rfl
@[simp] theorem latchGrid_reads (th tw : Dim) (s : State) : (latchGrid th tw s).reads = s.reads := rfl
@[simp] theorem latchGrid_draws (th tw : Dim) (s : State) : (latchGrid th tw s).draws = s.draws := rfl

/-! `refuseGrid` -/

@[simp] theorem refuseGrid_acc (s : State) : (refuseGrid s).acc = s.acc := rfl
@[simp] theorem refuseGrid_c (s : State) : (refuseGrid s).c = s.c := rfl
@[simp] theorem refuseGrid_r (s : State) : (refuseGrid s).r = s.r := rfl
@[simp] theorem refuseGrid_tw (s : State) : (refuseGrid s).tw = 0 := rfl
@[simp] theorem refuseGrid_th (s : State) : (refuseGrid s).th = 0 := rfl
@[simp] theorem refuseGrid_nt (s : State) : (refuseGrid s).nt = s.nt := rfl
@[simp] theorem refuseGrid_unique (s : State) : (refuseGrid s).unique = s.unique := rfl
@[simp] theorem refuseGrid_dupcnt (s : State) : (refuseGrid s).dupcnt = s.dupcnt := rfl
@[simp] theorem refuseGrid_phase (s : State) : (refuseGrid s).phase = .fault := rfl
@[simp] theorem refuseGrid_warn (s : State) : (refuseGrid s).warn = s.warn := rfl
@[simp] theorem refuseGrid_rdone (s : State) : (refuseGrid s).rdone = s.rdone := rfl
@[simp] theorem refuseGrid_errcode (s : State) : (refuseGrid s).errcode = .range := rfl
@[simp] theorem refuseGrid_sel (s : State) : (refuseGrid s).sel = s.sel := rfl
@[simp] theorem refuseGrid_tgrow (s : State) : (refuseGrid s).tgrow = s.tgrow := rfl
@[simp] theorem refuseGrid_tgdup (s : State) : (refuseGrid s).tgdup = s.tgdup := rfl
@[simp] theorem refuseGrid_imap (s : State) : (refuseGrid s).imap = s.imap := rfl
@[simp] theorem refuseGrid_port (s : State) : (refuseGrid s).port = s.port := rfl
@[simp] theorem refuseGrid_out (s : State) : (refuseGrid s).out = s.out := rfl
@[simp] theorem refuseGrid_reads (s : State) : (refuseGrid s).reads = s.reads := rfl
@[simp] theorem refuseGrid_draws (s : State) : (refuseGrid s).draws = s.draws := rfl

/-! `addPixel` -/

@[simp] theorem addPixel_acc (v : Pixel) (s : State) : (addPixel v s).acc = accWrite s.acc s.r
    (orPixel v s.c.toNat (accRead s.acc s.r)) := rfl
@[simp] theorem addPixel_c (v : Pixel) (s : State) : (addPixel v s).c = s.c := rfl
@[simp] theorem addPixel_r (v : Pixel) (s : State) : (addPixel v s).r = s.r := rfl
@[simp] theorem addPixel_tw (v : Pixel) (s : State) : (addPixel v s).tw = s.tw := rfl
@[simp] theorem addPixel_th (v : Pixel) (s : State) : (addPixel v s).th = s.th := rfl
@[simp] theorem addPixel_nt (v : Pixel) (s : State) : (addPixel v s).nt = s.nt := rfl
@[simp] theorem addPixel_unique (v : Pixel) (s : State) : (addPixel v s).unique = s.unique := rfl
@[simp] theorem addPixel_dupcnt (v : Pixel) (s : State) : (addPixel v s).dupcnt = s.dupcnt := rfl
@[simp] theorem addPixel_phase (v : Pixel) (s : State) : (addPixel v s).phase = s.phase := rfl
@[simp] theorem addPixel_warn (v : Pixel) (s : State) : (addPixel v s).warn = s.warn := rfl
@[simp] theorem addPixel_rdone (v : Pixel) (s : State) : (addPixel v s).rdone = s.rdone := rfl
@[simp] theorem addPixel_errcode (v : Pixel) (s : State) : (addPixel v s).errcode = s.errcode := rfl
@[simp] theorem addPixel_sel (v : Pixel) (s : State) : (addPixel v s).sel = s.sel := rfl
@[simp] theorem addPixel_tgrow (v : Pixel) (s : State) : (addPixel v s).tgrow = s.tgrow := rfl
@[simp] theorem addPixel_tgdup (v : Pixel) (s : State) : (addPixel v s).tgdup = s.tgdup := rfl
@[simp] theorem addPixel_imap (v : Pixel) (s : State) : (addPixel v s).imap = s.imap := rfl
@[simp] theorem addPixel_port (v : Pixel) (s : State) : (addPixel v s).port = s.port := rfl
@[simp] theorem addPixel_out (v : Pixel) (s : State) : (addPixel v s).out = s.out := rfl
@[simp] theorem addPixel_reads (v : Pixel) (s : State) : (addPixel v s).reads = s.reads := rfl
@[simp] theorem addPixel_draws (v : Pixel) (s : State) : (addPixel v s).draws = s.draws := rfl

/-! `commitTile` -/

@[simp] theorem commitTile_acc (s : State) : (commitTile s).acc = accZero := rfl
@[simp] theorem commitTile_c (s : State) : (commitTile s).c = s.c := rfl
@[simp] theorem commitTile_r (s : State) : (commitTile s).r = s.r := rfl
@[simp] theorem commitTile_tw (s : State) : (commitTile s).tw = s.tw := rfl
@[simp] theorem commitTile_th (s : State) : (commitTile s).th = s.th := rfl
@[simp] theorem commitTile_nt (s : State) : (commitTile s).nt = s.nt + 1 := rfl
@[simp] theorem commitTile_unique (s : State) : (commitTile s).unique = s.unique := rfl
@[simp] theorem commitTile_dupcnt (s : State) : (commitTile s).dupcnt = s.dupcnt := rfl
@[simp] theorem commitTile_phase (s : State) : (commitTile s).phase = if s.nt.toNat + 1 = tileCount s then .ready else s.phase := rfl
@[simp] theorem commitTile_warn (s : State) : (commitTile s).warn = s.warn := rfl
@[simp] theorem commitTile_rdone (s : State) : (commitTile s).rdone = s.rdone := rfl
@[simp] theorem commitTile_errcode (s : State) : (commitTile s).errcode = s.errcode := rfl
@[simp] theorem commitTile_sel (s : State) : (commitTile s).sel = s.sel := rfl
@[simp] theorem commitTile_tgrow (s : State) : (commitTile s).tgrow = memWriteRun s.tgrow
    (rowAddr s.nt.toNat 0) s.acc.toList := rfl
@[simp] theorem commitTile_tgdup (s : State) : (commitTile s).tgdup = memWrite s.tgdup s.nt.toNat 0#1 := rfl
@[simp] theorem commitTile_imap (s : State) : (commitTile s).imap = s.imap := rfl
@[simp] theorem commitTile_port (s : State) : (commitTile s).port = s.port := rfl
@[simp] theorem commitTile_out (s : State) : (commitTile s).out = s.out := rfl
@[simp] theorem commitTile_reads (s : State) : (commitTile s).reads = s.reads := rfl
@[simp] theorem commitTile_draws (s : State) : (commitTile s).draws = s.draws := rfl

/-! `reduceCommit` -/

@[simp] theorem reduceCommit_acc (n : Nat) (k : ReduceWork) (s : State) : (reduceCommit n k s).acc = s.acc := rfl
@[simp] theorem reduceCommit_c (n : Nat) (k : ReduceWork) (s : State) : (reduceCommit n k s).c = s.c := rfl
@[simp] theorem reduceCommit_r (n : Nat) (k : ReduceWork) (s : State) : (reduceCommit n k s).r = s.r := rfl
@[simp] theorem reduceCommit_tw (n : Nat) (k : ReduceWork) (s : State) : (reduceCommit n k s).tw = s.tw := rfl
@[simp] theorem reduceCommit_th (n : Nat) (k : ReduceWork) (s : State) : (reduceCommit n k s).th = s.th := rfl
@[simp] theorem reduceCommit_nt (n : Nat) (k : ReduceWork) (s : State) : (reduceCommit n k s).nt = s.nt := rfl
@[simp] theorem reduceCommit_unique (n : Nat) (k : ReduceWork) (s : State) : (reduceCommit n k s).unique = BitVec.ofNat 11
    (n - k.duplicateCount) := rfl
@[simp] theorem reduceCommit_dupcnt (n : Nat) (k : ReduceWork) (s : State) :
    (reduceCommit n k s).dupcnt = BitVec.ofNat 10 k.duplicateCount := rfl
@[simp] theorem reduceCommit_phase (n : Nat) (k : ReduceWork) (s : State) : (reduceCommit n k s).phase = .reduced := rfl
@[simp] theorem reduceCommit_warn (n : Nat) (k : ReduceWork) (s : State) : (reduceCommit n k s).warn = warnFlag
    (n - k.duplicateCount) := rfl
@[simp] theorem reduceCommit_rdone (n : Nat) (k : ReduceWork) (s : State) : (reduceCommit n k s).rdone = true := rfl
@[simp] theorem reduceCommit_errcode (n : Nat) (k : ReduceWork) (s : State) : (reduceCommit n k s).errcode = s.errcode := rfl
@[simp] theorem reduceCommit_sel (n : Nat) (k : ReduceWork) (s : State) : (reduceCommit n k s).sel = s.sel := rfl
@[simp] theorem reduceCommit_tgrow (n : Nat) (k : ReduceWork) (s : State) : (reduceCommit n k s).tgrow = s.tgrow := rfl
@[simp] theorem reduceCommit_tgdup (n : Nat) (k : ReduceWork) (s : State) : (reduceCommit n k s).tgdup = memWriteRun s.tgdup 0
    (k.dup.map BitVec.ofBool) := rfl
@[simp] theorem reduceCommit_imap (n : Nat) (k : ReduceWork) (s : State) : (reduceCommit n k s).imap = memWriteRun s.imap 0
    (k.im.map (BitVec.ofNat 10)) := rfl
@[simp] theorem reduceCommit_port (n : Nat) (k : ReduceWork) (s : State) : (reduceCommit n k s).port = s.port := rfl
@[simp] theorem reduceCommit_out (n : Nat) (k : ReduceWork) (s : State) : (reduceCommit n k s).out = s.out := rfl
@[simp] theorem reduceCommit_reads (n : Nat) (k : ReduceWork) (s : State) : (reduceCommit n k s).reads = s.reads := rfl
@[simp] theorem reduceCommit_draws (n : Nat) (k : ReduceWork) (s : State) : (reduceCommit n k s).draws = s.draws := rfl

end Sys2Proof.Machine
end

