-- ==== Sys2Proof/Laws/Ops.lean ====
section
/-! SUPPORT. What the shared operations do, said once: gathering elements, the accumulators, the phase gate, and which elements hold
a value after each update of State. -/

namespace Sys2Proof.Machine

/-! ### gather -/

theorem gather_eq_some_iff {α : Type} {f : Nat → Option α} {l : List Nat} {ys : List α} :
    gather f l = some ys ↔ l.map f = ys.map some := by
  induction l generalizing ys with
  | nil => cases ys <;> simp [gather]
  | cons a as ih =>
    simp only [gather]
    cases hf : f a with
    | none => cases ys <;> simp [hf]
    | some x =>
      cases hg : gather f as with
      | none =>
        cases ys with
        | nil => simp
        | cons y ys =>
          simp only [reduceCtorEq, List.map_cons, List.cons.injEq, hf, false_iff]
          rintro ⟨-, h⟩
          rw [ih.2 h] at hg
          cases hg
      | some xs =>
        cases ys with
        | nil => simp
        | cons y ys =>
          have := ih.1 hg
          simp only [List.map_cons, this, hf, Option.some.injEq, List.cons.injEq]
          constructor
          · rintro ⟨rfl, rfl⟩; exact ⟨rfl, rfl⟩
          · rintro ⟨rfl, h⟩
            exact ⟨rfl, List.map_injective_iff.2 (Option.some_injective α) h⟩

theorem gather_congr {α : Type} {f g : Nat → Option α} {l : List Nat} (h : ∀ a ∈ l, f a = g a) : gather f l = gather g l := by
  induction l with
  | nil => rfl
  | cons a as ih =>
    simp only [gather, h a (by simp), ih fun b hb => h b (by simp [hb])]

theorem gather_of_isSome {α : Type} {f : Nat → Option α} {l : List Nat} (h : ∀ a ∈ l, (f a).isSome = true) :
    ∃ ys, gather f l = some ys := by
  induction l with
  | nil => exact ⟨[], rfl⟩
  | cons a as ih =>
    obtain ⟨x, hx⟩ := Option.isSome_iff_exists.1 (h a (by simp))
    obtain ⟨ys, hy⟩ := ih fun b hb => h b (by simp [hb])
    exact ⟨x :: ys, by simp [gather, hx, hy]⟩

theorem gather_range_length {α : Type} {f : Nat → Option α} {n : Nat} {ys : List α} (h : gather f (List.range n) = some ys) :
    ys.length = n := by
  have := congrArg List.length (gather_eq_some_iff.1 h)
  simpa using this.symm

theorem gather_range_getElem {α : Type} {f : Nat → Option α} {n : Nat} {ys : List α} (h : gather f (List.range n) = some ys)
    {i : Nat} (hi : i < n) : f i = ys[i]? := by
  have h2 := congrArg (fun l => l[i]?) (gather_eq_some_iff.1 h)
  have hl := gather_range_length h
  simpa [hi, hl] using h2

theorem gather_range_eq_some {α : Type} {f : Nat → Option α} {n : Nat} {ys : List α} (hl : ys.length = n)
    (h : ∀ i < n, f i = ys[i]?) : gather f (List.range n) = some ys := by
  rw [gather_eq_some_iff]
  apply List.ext_getElem?
  intro i
  by_cases hi : i < n
  · simp [hi, h i hi, hl]
  · simp [hi, hl]

/-! ### The accumulators -/

theorem accRead_accWrite (acc : Vector Word 8) (r q : BitVec 3) (v : Word) :
    accRead (accWrite acc r v) q = if q = r then v else accRead acc q := by
  simp only [accRead, accWrite, Vector.getElem_set]
  by_cases h : q = r
  · simp [h]
  · have : r.toNat ≠ q.toNat := fun e => h (BitVec.eq_of_toNat_eq e.symm)
    simp [h, this]

@[simp] theorem accRead_accZero (r : BitVec 3) : accRead accZero r = 0#16 := by
  simp [accRead, accZero]

theorem accToList_getElem? (acc : Vector Word 8) {r : Nat} (h : r < 8) :
    acc.toList[r]? = some (accRead acc (BitVec.ofNat 3 r)) := by
  have h2 : r % 8 = r := Nat.mod_eq_of_lt h
  rw [List.getElem?_eq_getElem (by simpa using h)]
  simp [accRead, h2]

theorem acc_ext {a b : Vector Word 8} (h : ∀ r < 8, accRead a (BitVec.ofNat 3 r) = accRead b (BitVec.ofNat 3 r)) : a = b := by
  apply Vector.toList_inj.1
  apply List.ext_getElem?
  intro r
  by_cases hr : r < 8
  · rw [accToList_getElem? a hr, accToList_getElem? b hr, h r hr]
  · simp [hr]

/-! ### The phase gate -/

theorem phaseGate_ok {i : Instr} {s : State} {act : State → Host.Outcome State Fault Refusal} (h : phaseTable s.phase i = .ok) :
    phaseGate i s act = act s := by
  simp [phaseGate, h]

theorem phaseGate_raise {i : Instr} {s : State} {act : State → Host.Outcome State Fault Refusal} {code : ErrCode}
    (h : phaseTable s.phase i = .raise code) : phaseGate i s act = .next (raiseFault code s) := by
  simp [phaseGate, h]

theorem phaseGate_drop {i : Instr} {s : State} {act : State → Host.Outcome State Fault Refusal}
    (h : phaseTable s.phase i = .drop) : phaseGate i s act = .next s := by
  simp [phaseGate, h]

/-- Everything the gate can answer. -/
theorem phaseGate_cases {i : Instr} {s t : State} {act : State → Host.Outcome State Fault Refusal}
    (h : phaseGate i s act = .next t) :
    (phaseTable s.phase i = .ok ∧ act s = .next t) ∨ (∃ code, phaseTable s.phase i = .raise code ∧ t = raiseFault code s) ∨
      (phaseTable s.phase i = .drop ∧ t = s) := by
  unfold phaseGate at h
  split at h
  · exact .inl ⟨by assumption, h⟩
  · cases h; exact .inr (.inl ⟨_, by assumption, rfl⟩)
  · cases h; exact .inr (.inr ⟨by assumption, rfl⟩)

/-! ### What holds a value after an update -/

theorem tileCount_congr {s t : State} (h1 : s.tw = t.tw) (h2 : s.th = t.th) : tileCount s = tileCount t := by
  simp [tileCount, h1, h2]

theorem pixCount_congr {s t : State} (h1 : s.r = t.r) (h2 : s.c = t.c) : pixCount s = pixCount t := by
  simp [pixCount, h1, h2]

theorem readRow_congr {s t : State} (h1 : s.nt = t.nt) (h2 : s.tgrow = t.tgrow) (k r : Nat) : readRow s k r = readRow t k r := by
  simp [readRow, h1, h2]

theorem readDup_congr {s t : State} (h1 : s.nt = t.nt) (h2 : s.tgdup = t.tgdup) (k : Nat) : readDup s k = readDup t k := by
  simp [readDup, h1, h2]

theorem readEntry_congr {s t : State} (h1 : s.rdone = t.rdone) (h2 : s.tw = t.tw) (h3 : s.th = t.th) (h4 : s.imap = t.imap)
    (k : Nat) : readEntry s k = readEntry t k := by
  simp [readEntry, h1, tileCount_congr h2 h3, h4]

theorem readTile_congr {s t : State} {k : Nat} (h : ∀ r < 8, readRow s k r = readRow t k r) : readTile s k = readTile t k :=
  gather_congr fun r hr => h r (List.mem_range.1 hr)

theorem readTiles_congr {s t : State} {n : Nat} (h : ∀ k < n, ∀ r < 8, readRow s k r = readRow t k r) :
    readTiles s n = readTiles t n :=
  gather_congr fun k hk => readTile_congr (h k (List.mem_range.1 hk))

theorem readDups_congr {s t : State} {n : Nat} (h : ∀ k < n, readDup s k = readDup t k) : readDups s n = readDups t n :=
  gather_congr fun k hk => by simp only [h k (List.mem_range.1 hk)]

theorem readEntries_congr {s t : State} {n : Nat} (h : ∀ k < n, readEntry s k = readEntry t k) :
    readEntries s n = readEntries t n :=
  gather_congr fun k hk => h k (List.mem_range.1 hk)

theorem readTile_length {s : State} {k : Nat} {rows : TileRows} (h : readTile s k = some rows) : rows.length = 8 :=
  gather_range_length h

theorem readTile_row {s : State} {k r : Nat} {rows : TileRows} (h : readTile s k = some rows) (hr : r < 8) :
    readRow s k r = rows[r]? :=
  gather_range_getElem h hr

theorem readTiles_length {s : State} {n : Nat} {tiles : List TileRows} (h : readTiles s n = some tiles) : tiles.length = n :=
  gather_range_length h

theorem readTiles_tile {s : State} {n k : Nat} {tiles : List TileRows} (h : readTiles s n = some tiles) (hk : k < n) :
    readTile s k = tiles[k]? :=
  gather_range_getElem h hk

theorem readDups_length {s : State} {n : Nat} {dups : List Bool} (h : readDups s n = some dups) : dups.length = n :=
  gather_range_length h

theorem readEntries_length {s : State} {n : Nat} {es : List TileIdx} (h : readEntries s n = some es) : es.length = n :=
  gather_range_length h

theorem readEntries_entry {s : State} {n k : Nat} {es : List TileIdx} (h : readEntries s n = some es) (hk : k < n) :
    readEntry s k = es[k]? :=
  gather_range_getElem h hk

/-- After a commit tile `NT` holds the eight accumulators and every earlier tile what it held. -/
theorem readRow_commitTile {s : State} {k r : Nat} (hs : s.nt.toNat < 1024) (hr : r < 8) :
    readRow (commitTile s) k r = if k = s.nt.toNat then s.acc.toList[r]? else readRow s k r := by
  have h1 : (s.nt + 1).toNat = s.nt.toNat + 1 := by
    rw [BitVec.toNat_add]; simp; omega
  simp only [readRow, commitTile_nt, commitTile_tgrow, h1, rowAddr, memRead_memWriteRun]
  by_cases hk : k = s.nt.toNat
  · subst hk
    have : 8 * s.nt.toNat + 0 ≤ 8 * s.nt.toNat + r ∧ 8 * s.nt.toNat + r < 8 * s.nt.toNat + 0 + s.acc.toList.length := by
      simp; omega
    simp [hr]
  · have h2 : ¬ (8 * s.nt.toNat + 0 ≤ 8 * k + r ∧ 8 * k + r < 8 * s.nt.toNat + 0 + s.acc.toList.length) := by
      simp; omega
    have h3 : (k < s.nt.toNat + 1) ↔ (k < s.nt.toNat) := by omega
    rw [if_neg h2, if_neg hk]
    simp only [h3]

theorem readRow_commitTile_own {s : State} {n r : Nat} (hn : s.nt.toNat = n) (hs : n < 1024) (hr : r < 8) :
    readRow (commitTile s) n r = some (accRead s.acc (BitVec.ofNat 3 r)) := by
  subst hn
  rw [readRow_commitTile hs hr, if_pos rfl, accToList_getElem? _ hr]

/-- After a commit the flag of tile `NT` is 0 and every earlier flag is what it was. -/
theorem readDup_commitTile {s : State} {k : Nat} (hs : s.nt.toNat < 1024) :
    readDup (commitTile s) k = if k = s.nt.toNat then some 0#1 else readDup s k := by
  have h1 : (s.nt + 1).toNat = s.nt.toNat + 1 := by
    rw [BitVec.toNat_add]; simp; omega
  simp only [readDup, commitTile_nt, commitTile_tgdup, h1, memRead_memWrite]
  by_cases hk : k = s.nt.toNat
  · simp [hk]
  · have h3 : (k < s.nt.toNat + 1) ↔ (k < s.nt.toNat) := by omega
    simp only [hk, h3, if_false]

theorem readDup_commitTile_own {s : State} {n : Nat} (hn : s.nt.toNat = n) (hs : n < 1024) :
    readDup (commitTile s) n = some 0#1 := by
  subst hn
  rw [readDup_commitTile hs, if_pos rfl]

/-- After REDUCE over `n` tiles the flags of those tiles are the work's. -/
theorem readDup_reduceCommit {s : State} {n k : Nat} {wk : ReduceWork} :
    readDup (reduceCommit n wk s) k =
      if k < s.nt.toNat ∧ k < wk.dup.length then (wk.dup[k]?).map BitVec.ofBool else readDup s k := by
  simp only [readDup, reduceCommit_nt, reduceCommit_tgdup, memRead_memWriteRun, List.length_map, Nat.zero_add, Nat.zero_le,
    true_and, Nat.sub_zero, List.getElem?_map]
  by_cases h1 : k < s.nt.toNat <;> by_cases h2 : k < wk.dup.length <;> simp [h1, h2]

/-- After REDUCE the map entries below `N` are the work's. -/
theorem readEntry_reduceCommit {s : State} {n k : Nat} {wk : ReduceWork} (hk : k < tileCount s) (hl : k < wk.im.length) :
    readEntry (reduceCommit n wk s) k = (wk.im[k]?).map (BitVec.ofNat 10) := by
  have h : tileCount (reduceCommit n wk s) = tileCount s := rfl
  simp only [readEntry, h, reduceCommit_rdone, hk, reduceCommit_imap, memRead_memWriteRun, List.length_map, Nat.zero_add,
    Nat.zero_le, true_and, hl, if_true, Nat.sub_zero, List.getElem?_map]

end Sys2Proof.Machine
end

