-- ==== Sys2Proof/Laws/Exec.lean ====
section
/-! SUPPORT. What exec and step can answer, command by command: the citations that replace unfolding a meaning. -/

namespace Sys2Proof.Machine

/-! ### Gated answers, for every command -/

theorem exec_of_raise {i : Instr} {s : State} {code : ErrCode} (h : phaseTable s.phase i = .raise code) :
    exec i s = .next (raiseFault code s) := by
  cases i <;>
    simp only [exec, execNop, execStart, execPix, execReduce, execEmitt, execEmitm, execSel, phaseGate_raise h]

theorem exec_of_drop {i : Instr} {s : State} (h : phaseTable s.phase i = .drop) : exec i s = .next s := by
  cases i <;>
    simp only [exec, execNop, execStart, execPix, execReduce, execEmitt, execEmitm, execSel, phaseGate_drop h]

/-! ### Each command executed -/

theorem exec_nop (s : State) : exec .nop s = .next s := by
  cases h : s.phase <;> simp [exec, execNop, phaseGate, phaseTable, h]

theorem exec_start (th tw : Dim) (s : State) :
    exec (.start th tw) s =
      .next (if dimOk tw && dimOk th then latchGrid th tw (clearExport s) else refuseGrid (clearExport s)) := by
  have h : phaseTable s.phase (.start th tw) = .ok := by cases s.phase <;> rfl
  rw [exec, execStart, phaseGate_ok h]
  split <;> rfl

theorem exec_sel {t : TileIdx} {s : State} (h : s.phase ≠ .fault) : exec (.sel t) s = .next { s with sel := t } := by
  have h : phaseTable s.phase (.sel t) = .ok := by cases hp : s.phase <;> first | rfl | exact absurd hp h
  rw [exec, execSel, phaseGate_ok h]

/-- PIX that ends no row. -/
theorem exec_pix_column {v : Pixel} {s : State} (h : s.phase = .load) (hc : s.c.toNat < 8) :
    exec (.pix v) s = .next { addPixel v s with c := s.c + 1 } := by
  rw [exec, execPix, phaseGate_ok (by rw [h]; rfl)]
  simp [hc]

/-- PIX that ends a row and no tile. -/
theorem exec_pix_row {v : Pixel} {s : State} (h : s.phase = .load) (hc : ¬ s.c.toNat < 8) (hr : s.r.toNat < 7) :
    exec (.pix v) s = .next { addPixel v s with c := 1, r := s.r + 1 } := by
  rw [exec, execPix, phaseGate_ok (by rw [h]; rfl)]
  simp [hc, hr]

/-- PIX that ends a tile. -/
theorem exec_pix_commit {v : Pixel} {s : State} (h : s.phase = .load) (hc : ¬ s.c.toNat < 8) (hr : ¬ s.r.toNat < 7)
    (hn : s.nt.toNat < 1024) : exec (.pix v) s = .next (commitTile { addPixel v s with c := 1, r := 0 }) := by
  rw [exec, execPix, phaseGate_ok (by rw [h]; rfl)]
  simp [hc, hr, hn]

theorem exec_reduce {s : State} {tiles : List TileRows} {dups : List Bool} (h : s.phase = .ready) (hn : tileCount s ≤ 1024)
    (ht : readTiles s (tileCount s) = some tiles) (hd : readDups s (tileCount s) = some dups) :
    exec .reduce s = .next (reduceCommit (tileCount s) (reduceRun tiles (tileCount s) dups) s) := by
  rw [exec, execReduce, phaseGate_ok (by rw [h]; rfl)]
  have : ¬ Config.maxTiles < tileCount s := by simpa using hn
  simp only [this, if_false, ht, hd]

theorem exec_emitt {s : State} {tiles : List TileRows} {dups : List Bool} (h : s.phase = .reduced)
    (ht : readTiles s (tileCount s) = some tiles) (hd : readDups s (tileCount s) = some dups) :
    exec .emitt s = .next (emitBeats (emitTiles s.unique.toNat 0 dups tiles) s) := by
  rw [exec, execEmitt, phaseGate_ok (by rw [h]; rfl)]
  simp only [ht, hd]

theorem exec_emitm {s : State} {es : List TileIdx} (h : s.phase = .reduced) (he : readEntries s (tileCount s) = some es) :
    exec .emitm s = .next (emitBeats (emitEntries s.tw.toNat (tileCount s) 0 es) s) := by
  rw [exec, execEmitm, phaseGate_ok (by rw [h]; rfl)]
  simp only [he]

/-! ### Everything exec can answer as a next state -/

/-- The kinds of effect a command can have. -/
inductive Effect (s : State) : Instr → State → Prop where
  | nop : Effect s .nop s
  | dropped (i : Instr) (h : phaseTable s.phase i = .drop) : Effect s i s
  | raised (i : Instr) (code : ErrCode) (h : phaseTable s.phase i = .raise code) : Effect s i (raiseFault code s)
  | opened (th tw : Dim) (h : (dimOk tw && dimOk th) = true) : Effect s (.start th tw) (latchGrid th tw (clearExport s))
  | refused (th tw : Dim) (h : (dimOk tw && dimOk th) = false) : Effect s (.start th tw) (refuseGrid (clearExport s))
  | selected (t : TileIdx) (h : s.phase ≠ .fault) : Effect s (.sel t) { s with sel := t }
  | column (v : Pixel) (h : s.phase = .load) (hc : s.c.toNat < 8) : Effect s (.pix v) { addPixel v s with c := s.c + 1 }
  | row (v : Pixel) (h : s.phase = .load) (hc : ¬ s.c.toNat < 8) (hr : s.r.toNat < 7) :
    Effect s (.pix v) { addPixel v s with c := 1, r := s.r + 1 }
  | commit (v : Pixel) (h : s.phase = .load) (hc : ¬ s.c.toNat < 8) (hr : ¬ s.r.toNat < 7) (hn : s.nt.toNat < 1024) :
    Effect s (.pix v) (commitTile { addPixel v s with c := 1, r := 0 })
  | reduced (tiles : List TileRows) (dups : List Bool) (h : s.phase = .ready) (hn : tileCount s ≤ 1024)
    (ht : readTiles s (tileCount s) = some tiles) (hd : readDups s (tileCount s) = some dups) :
    Effect s .reduce (reduceCommit (tileCount s) (reduceRun tiles (tileCount s) dups) s)
  | emittedTiles (tiles : List TileRows) (dups : List Bool) (h : s.phase = .reduced)
    (ht : readTiles s (tileCount s) = some tiles) (hd : readDups s (tileCount s) = some dups) :
    Effect s .emitt (emitBeats (emitTiles s.unique.toNat 0 dups tiles) s)
  | emittedMap (es : List TileIdx) (h : s.phase = .reduced) (he : readEntries s (tileCount s) = some es) :
    Effect s .emitm (emitBeats (emitEntries s.tw.toNat (tileCount s) 0 es) s)

/-- Inversion: a next state of exec comes about in one of these ways. -/
theorem exec_effect {i : Instr} {s t : State} (h : exec i s = .next t) : Effect s i t := by
  cases i with
  | nop => rw [exec_nop] at h; cases h; exact .nop
  | start th tw =>
    rw [exec_start] at h
    cases h
    split
    · exact .opened th tw ‹_›
    · exact .refused th tw (Bool.eq_false_iff.2 ‹¬ _›)
  | sel x =>
    rw [exec, execSel] at h
    rcases phaseGate_cases h with ⟨hp, h⟩ | ⟨code, hp, rfl⟩ | ⟨hp, rfl⟩
    · cases h
      refine .selected x fun hf => ?_
      rw [hf] at hp; cases hp
    · exact .raised _ code hp
    · exact .dropped _ hp
  | pix v =>
    rw [exec, execPix] at h
    rcases phaseGate_cases h with ⟨hp, h⟩ | ⟨code, hp, rfl⟩ | ⟨hp, rfl⟩
    · have hl : s.phase = .load := by cases hq : s.phase <;> rw [hq] at hp <;> first | rfl | cases hp
      dsimp only at h
      split at h
      · cases h; exact .column v hl ‹_›
      · split at h
        · cases h; exact .row v hl ‹_› ‹_›
        · split at h
          · cases h; exact .commit v hl ‹_› ‹_› ‹_›
          · cases h
    · exact .raised _ code hp
    · exact .dropped _ hp
  | reduce =>
    rw [exec, execReduce] at h
    rcases phaseGate_cases h with ⟨hp, h⟩ | ⟨code, hp, rfl⟩ | ⟨hp, rfl⟩
    · have hl : s.phase = .ready := by cases hq : s.phase <;> rw [hq] at hp <;> first | rfl | cases hp
      split at h
      · cases h
      · split at h
        · cases h
        · split at h
          · cases h
          · cases h; exact .reduced _ _ hl (Nat.le_of_not_lt ‹¬ _›) ‹_› ‹_›
    · exact .raised _ code hp
    · exact .dropped _ hp
  | emitt =>
    rw [exec, execEmitt] at h
    rcases phaseGate_cases h with ⟨hp, h⟩ | ⟨code, hp, rfl⟩ | ⟨hp, rfl⟩
    · have hl : s.phase = .reduced := by cases hq : s.phase <;> rw [hq] at hp <;> first | rfl | cases hp
      split at h
      · cases h
      · split at h
        · cases h
        · cases h; exact .emittedTiles _ _ hl ‹_› ‹_›
    · exact .raised _ code hp
    · exact .dropped _ hp
  | emitm =>
    rw [exec, execEmitm] at h
    rcases phaseGate_cases h with ⟨hp, h⟩ | ⟨code, hp, rfl⟩ | ⟨hp, rfl⟩
    · have hl : s.phase = .reduced := by cases hq : s.phase <;> rw [hq] at hp <;> first | rfl | cases hp
      split at h
      · cases h
      · cases h; exact .emittedMap _ hl ‹_›
    · exact .raised _ code hp
    · exact .dropped _ hp

/-- No command of this model is refused. -/
theorem exec_ne_refused (i : Instr) (s : State) (x : Refusal) : exec i s ≠ .refused x := by
  intro h
  cases i with
  | nop => rw [exec_nop] at h; cases h
  | start th tw => rw [exec_start] at h; cases h
  | sel t => simp only [exec, execSel, phaseGate] at h; split at h <;> cases h
  | pix v =>
    simp only [exec, execPix, phaseGate] at h
    split at h
    · split at h
      · cases h
      · split at h
        · cases h
        · split at h <;> cases h
    · cases h
    · cases h
  | reduce =>
    simp only [exec, execReduce, phaseGate] at h
    split at h
    · split at h
      · cases h
      · split at h
        · cases h
        · split at h <;> cases h
    · cases h
    · cases h
  | emitt =>
    simp only [exec, execEmitt, phaseGate] at h
    split at h
    · split at h
      · cases h
      · split at h <;> cases h
    · cases h
    · cases h
  | emitm =>
    simp only [exec, execEmitm, phaseGate] at h
    split at h
    · split at h <;> cases h
    · cases h
    · cases h

/-! ### step -/

theorem step_command {s : State} {w : Word} {rest : List Txn} {i : Instr} (hp : s.port = .command w :: rest)
    (hd : decode w = .ok i) : step s = exec i { s with port := rest } := by
  simp [step, takeTxn, hp, hd]

theorem step_illegal {s : State} {w : Word} {rest : List Txn} {e : DecodeError} (hp : s.port = .command w :: rest)
    (hd : decode w = .error e) : step s = .next (illegalWord { s with port := rest }) := by
  simp [step, takeTxn, hp, hd]

theorem step_read {s : State} {a : WinAddr} {rest : List Txn} (hp : s.port = .read a :: rest) :
    step s = .next (windowRead a { s with port := rest }) := by
  simp [step, takeTxn, hp]

theorem step_hardReset {s : State} {rest : List Txn} (hp : s.port = .hardReset :: rest) :
    step s = .next (hardwareReset { s with port := rest }) := by
  simp [step, takeTxn, hp]

theorem step_empty {s : State} (hp : s.port = []) : step s = .next s := by
  simp [step, takeTxn, hp]

/-! ### Counters and sequences of commands -/

theorem c_succ {c : BitVec 4} (h : c.toNat < 8) : (c + 1).toNat = c.toNat + 1 := by
  rw [BitVec.toNat_add]; simp; omega

theorem r_succ {c : BitVec 3} (h : c.toNat < 7) : (c + 1).toNat = c.toNat + 1 := by
  rw [BitVec.toNat_add]; simp; omega

theorem nt_succ {c : TileCnt} (h : c.toNat < 1024) : (c + 1).toNat = c.toNat + 1 := by
  rw [BitVec.toNat_add]; simp; omega

theorem raise_ne_none {p : Phase} {i : Instr} {code : ErrCode} (h : phaseTable p i = .raise code) : code ≠ .none := by
  cases p <;> cases i <;> simp [phaseTable] at h <;> subst h <;> simp

theorem execAll_append (a b : List Instr) (s : State) :
    execAll (a ++ b) s = match execAll a s with | .next t => execAll b t | .fault r => .fault r | .refused r => .refused r := by
  induction a generalizing s with
  | nil => rfl
  | cons i a ih =>
    simp only [List.cons_append, execAll]
    cases exec i s <;> simp [ih]

theorem execAll_append_next {a b : List Instr} {s t : State} (h : execAll a s = .next t) : execAll (a ++ b) s = execAll b t := by
  rw [execAll_append, h]

theorem execAll_single (i : Instr) (s : State) : execAll [i] s = exec i s := by
  simp only [execAll]; cases exec i s <;> rfl

/-- A command only appends to the output. -/
theorem exec_out {s t : State} {i} (he : exec i s = .next t) : ∃ b, t.out = s.out ++ b := by
  cases exec_effect he <;> first | (refine ⟨[], ?_⟩; simp; done) | exact ⟨_, rfl⟩

end Sys2Proof.Machine
end

