-- ==== Sys2Proof/Laws/Agreement.lean ====
section
/-! SUPPORT. Two states that agree up to contents that hold no value are one state with two sets of memories. -/

namespace Sys2Proof.Machine

variable {s t : State}

/-- `s` with other physical contents of the three memories. -/
abbrev withMemories (s : State) (g : Memory 16) (d : Memory 1) (m : Memory 10) : State :=
    { s with tgrow := g, tgdup := d, imap := m }

theorem SameValued.exists_withMemories (h : SameValued s t) : ∃ g d m, t = withMemories s g d m := by
  refine ⟨t.tgrow, t.tgdup, t.imap, ?_⟩
  obtain ⟨⟩ := h
  cases s; cases t
  simp only [withMemories, State.mk.injEq] at *
  simp_all

theorem sameValued_withMemories {g : Memory 16} {d : Memory 1} {m : Memory 10}
    (h1 : ∀ k, ∀ r < 8, readRow s k r = readRow (withMemories s g d m) k r)
   (h2 : ∀ k, readDup s k = readDup (withMemories s g d m) k) (h3 : ∀ k, readEntry s k = readEntry (withMemories s g d m) k) :
       SameValued s (withMemories s g d m) :=
  ⟨rfl, rfl, rfl, rfl, rfl, rfl, rfl, rfl, rfl, rfl, rfl, rfl, rfl, h1, h2, h3, rfl, rfl, rfl, rfl⟩

theorem SameValued.tileCount (h : SameValued s t) : tileCount s = tileCount t := tileCount_congr h.tw h.th

end Sys2Proof.Machine
end

