-- ==== Sys2Proof/Laws/Bits.lean ====
section
/-! SUPPORT. The bit-level facts of the operand and flag computations: the bounds of a dimension, the two bits a pixel sets, the bytes
of a tile, the fields of STATUS. -/

namespace Sys2Proof.Machine

theorem dimOk_iff {d : Dim} : dimOk d = true ↔ 1 ≤ d.toNat ∧ d.toNat ≤ 32 := by
  simp only [dimOk, Bool.and_eq_true, decide_eq_true_eq]

theorem dimsOk_iff {th tw : Dim} :
    (dimOk tw && dimOk th) = true ↔ 1 ≤ tw.toNat ∧ tw.toNat ≤ 32 ∧ 1 ≤ th.toNat ∧ th.toNat ≤ 32 := by
  rw [Bool.and_eq_true, dimOk_iff, dimOk_iff, and_assoc]

/-- A one shifted by `k` has only bit `k`. -/
theorem getLsbD_one_shift {k j : Nat} (hk : k < 16) : (1#16 <<< k).getLsbD j = decide (j = k) := by
  simp only [BitVec.getLsbD_shiftLeft, BitVec.getLsbD_one]
  by_cases h : j = k
  · subst h; simp [hk]
  · by_cases h2 : j < k
    · simp [h2, h]
    · simp [h2, h]; omega

/-- The bits of a row after a pixel at column `c` (R141). -/
theorem getLsbD_orPixel {v : Pixel} {c j : Nat} {row : Word} (h1 : 1 ≤ c) (h8 : c ≤ 8) :
    (orPixel v c row).getLsbD j =
      (row.getLsbD j || (decide (j = 16 - c) && v.getLsbD 0) || (decide (j = 8 - c) && v.getLsbD 1)) := by
  have hh : 16 - c < 16 := by omega
  have hl : 8 - c < 16 := by omega
  unfold orPixel pixelLow pixelHigh
  cases v.getLsbD 0 <;> cases v.getLsbD 1 <;>
    simp [BitVec.getLsbD_or, getLsbD_one_shift hh, getLsbD_one_shift hl]

/-- The bit of a row byte. -/
theorem getLsbD_rowHighByte {w : Word} {j : Nat} (h : j < 8) : (rowHighByte w).getLsbD j = w.getLsbD (8 + j) := by
  simp [rowHighByte, h]

theorem getLsbD_rowLowByte {w : Word} {j : Nat} (h : j < 8) : (rowLowByte w).getLsbD j = w.getLsbD j := by
  simp [rowLowByte, h]

theorem tileBytes_length (rows : TileRows) : (tileBytes rows).length = 2 * rows.length := by
  induction rows with
  | nil => rfl
  | cons w ws ih => simp [tileBytes, ih]; omega

theorem tileBytes_even {rows : TileRows} {r : Nat} : (tileBytes rows)[2 * r]? = rows[r]?.map rowHighByte := by
  induction rows generalizing r with
  | nil => simp [tileBytes]
  | cons w ws ih =>
    cases r with
    | zero => simp [tileBytes]
    | succ r =>
      have : 2 * (r + 1) = 2 * r + 1 + 1 := by omega
      rw [this]
      simp [tileBytes, ih]

theorem tileBytes_odd {rows : TileRows} {r : Nat} : (tileBytes rows)[2 * r + 1]? = rows[r]?.map rowLowByte := by
  induction rows generalizing r with
  | nil => simp [tileBytes]
  | cons w ws ih =>
    cases r with
    | zero => simp [tileBytes]
    | succ r =>
      have : 2 * (r + 1) + 1 = 2 * r + 1 + 1 + 1 := by omega
      rw [this]
      simp [tileBytes, ih]

/-- Bit `j` of a byte as a number. -/
theorem shiftRight_and_one (b : Byte) (j : Nat) : (b.toNat >>> j) &&& 1 = (b.getLsbD j).toNat := by
  rw [BitVec.getLsbD, Nat.testBit, Nat.and_one_is_mod, Nat.and_comm, Nat.and_one_is_mod]
  rcases Nat.mod_two_eq_zero_or_one (b.toNat >>> j) with h | h <;> simp [h]

/-- The decoder of R150 reads the two bits of its pixel. -/
theorem decodePixel_bits {b : List Byte} {r x : Nat} :
    (decodePixel b r x).getLsbD 0 = (b.getD (2 * r) 0#8).getLsbD (7 - x) ∧
      (decodePixel b r x).getLsbD 1 = (b.getD (2 * r + 1) 0#8).getLsbD (7 - x) := by
  unfold decodePixel
  rw [shiftRight_and_one, shiftRight_and_one]
  cases (b.getD (2 * r + 1) 0#8).getLsbD (7 - x) <;> cases (b.getD (2 * r) 0#8).getLsbD (7 - x) <;> exact ⟨rfl, rfl⟩

theorem pixel_ext {p q : Pixel} (h0 : p.getLsbD 0 = q.getLsbD 0) (h1 : p.getLsbD 1 = q.getLsbD 1) : p = q := by
  apply BitVec.eq_of_getLsbD_eq
  intro i hi
  match i, hi with
  | 0, _ => exact h0
  | 1, _ => exact h1

end Sys2Proof.Machine
end

