-- ==== Sys2Proof/Laws/Decode.lean ====
section
/-! SUPPORT. The fields of a word as numbers, and the cases of decode by the number of the word (30_encoding.md R105). -/

namespace Sys2Proof

theorem opcodeField_toNat (w : Word) : (opcodeField w).toNat = w.toNat / 4096 := by
  simp [opcodeField, Nat.shiftRight_eq_div_pow]; omega

theorem operandField_toNat (w : Word) : (operandField w).toNat = w.toNat % 4096 := by
  simp [operandField]

theorem thField_toNat (o : BitVec 12) : (thField o).toNat = o.toNat / 64 := by
  simp [thField, Nat.shiftRight_eq_div_pow]; omega

theorem twField_toNat (o : BitVec 12) : (twField o).toNat = o.toNat % 64 := by
  simp [twField]

theorem pixelField_toNat (o : BitVec 12) : (pixelField o).toNat = o.toNat % 4 := by
  simp [pixelField]

theorem tileField_toNat (o : BitVec 12) : (tileField o).toNat = o.toNat % 1024 := by
  simp [tileField]

theorem operandHigh_toNat (o : BitVec 12) : (o.extractLsb' 10 2).toNat = o.toNat / 1024 := by
  simp [Nat.shiftRight_eq_div_pow]; omega

/-- the cases of decode -/
theorem decode_cases (w : Word) :
    (w.toNat / 4096 = 1 ∧ decode w = .ok (.start (thField (operandField w)) (twField (operandField w)))) ∨
    (w.toNat / 4096 = 2 ∧ decode w = .ok (.pix (pixelField (operandField w)))) ∨
    (w.toNat / 1024 = 24 ∧ decode w = .ok (.sel (tileField (operandField w)))) ∨
    (w.toNat / 4096 = 6 ∧ w.toNat / 1024 ≠ 24 ∧ ∃ e, decode w = .error e) ∨
    (w.toNat = 0 ∧ decode w = .ok .nop) ∨ (w.toNat = 0x3000 ∧ decode w = .ok .reduce) ∨
    (w.toNat = 0x4000 ∧ decode w = .ok .emitt) ∨ (w.toNat = 0x5000 ∧ decode w = .ok .emitm) ∨
    ((w.toNat / 4096 = 0 ∨ w.toNat/4096 = 3 ∨ w.toNat/4096 = 4 ∨ w.toNat/4096 = 5) ∧ w.toNat % 4096 ≠ 0 ∧ ∃ e,
        decode w = .error e) ∨
    (7 ≤ w.toNat / 4096 ∧ ∃ e, decode w = .error e) := by
  have h1 := opcodeField_toNat w
  have h2 := operandField_toNat w
  have e : ∀ n, opcodeField w = BitVec.ofNat 4 n ↔ w.toNat/4096 = n % 16 := by
    intro n; rw [← h1, ← BitVec.toNat_inj]; simp
  have e2 : operandField w = 0#12 ↔ w.toNat % 4096 = 0 := by
    rw [← h2, ← BitVec.toNat_inj]; simp
  have e3 : (operandField w).extractLsb' 10 2 = 0#2 ↔ w.toNat % 4096 / 1024 = 0 := by
    rw [← h2, ← operandHigh_toNat, ← BitVec.toNat_inj]; simp
  unfold decode formatZ
  simp only [e, e2, e3]
  have hw := w.isLt
  by_cases c1 : w.toNat / 4096 = 1
  · exact .inl ⟨c1, by simp [c1]⟩
  by_cases c2 : w.toNat / 4096 = 2
  · exact .inr (.inl ⟨c2, by simp [c2]⟩)
  by_cases c6 : w.toNat / 4096 = 6
  · by_cases c : w.toNat % 4096 / 1024 = 0
    · exact .inr (.inr (.inl ⟨by omega, by simp [c6, c]⟩))
    · exact .inr (.inr (.inr (.inl ⟨c6, by omega, by simp [c6, c]⟩)))
  by_cases c0 : w.toNat / 4096 = 0
  · by_cases c : w.toNat % 4096 = 0
    · refine .inr (.inr (.inr (.inr (.inl ⟨by omega, by simp [c0, c]⟩))))
    · refine .inr (.inr (.inr (.inr (.inr (.inr (.inr (.inr (.inl ⟨by omega, c, by simp [c0, c]⟩))))))))
  by_cases c3 : w.toNat / 4096 = 3
  · by_cases c : w.toNat % 4096 = 0
    · refine .inr (.inr (.inr (.inr (.inr (.inl ⟨by omega, by simp [c3, c]⟩)))))
    · refine .inr (.inr (.inr (.inr (.inr (.inr (.inr (.inr (.inl ⟨by omega, c, by simp [c3, c]⟩))))))))
  by_cases c4 : w.toNat / 4096 = 4
  · by_cases c : w.toNat % 4096 = 0
    · refine .inr (.inr (.inr (.inr (.inr (.inr (.inl ⟨by omega, by simp [c4, c]⟩))))))
    · refine .inr (.inr (.inr (.inr (.inr (.inr (.inr (.inr (.inl ⟨by omega, c, by simp [c4, c]⟩))))))))
  by_cases c5 : w.toNat / 4096 = 5
  · by_cases c : w.toNat % 4096 = 0
    · refine .inr (.inr (.inr (.inr (.inr (.inr (.inr (.inl ⟨by omega, by simp [c5, c]⟩)))))))
    · refine .inr (.inr (.inr (.inr (.inr (.inr (.inr (.inr (.inl ⟨by omega, c, by simp [c5, c]⟩))))))))
  refine .inr (.inr (.inr (.inr (.inr (.inr (.inr (.inr (.inr ⟨by omega, by simp [c1, c2, c3, c4, c5, c6, c0]⟩))))))))

theorem selects_iff (w : Word) : ((w &&& 0xFFFF#16 == 0x0000#16) = decide (w.toNat = 0)) ∧
    ((w &&& 0xF000#16 == 0x1000#16) = decide (w.toNat / 4096 = 1)) ∧
   ((w &&& 0xF000#16 == 0x2000#16) = decide (w.toNat / 4096 = 2)) ∧ ((w &&& 0xFFFF#16 == 0x3000#16) = decide (w.toNat = 0x3000)) ∧
   ((w &&& 0xFFFF#16 == 0x4000#16) = decide (w.toNat = 0x4000)) ∧ ((w &&& 0xFFFF#16 == 0x5000#16) = decide (w.toNat = 0x5000)) ∧
   ((w &&& 0xFC00#16 == 0x6000#16) = decide (w.toNat / 1024 = 24)) := by
  have a1 : w &&& 0xFFFF#16 = w := by { apply BitVec.eq_of_getLsbD_eq; intro i hi; interval_cases i <;> simp }
  have a2 : w &&& 0xF000#16 = w >>> 12 <<< 12 := by { apply BitVec.eq_of_getLsbD_eq; intro i hi; interval_cases i <;> simp }
  have a3 : w &&& 0xFC00#16 = w >>> 10 <<< 10 := by { apply BitVec.eq_of_getLsbD_eq; intro i hi; interval_cases i <;> simp }
  rw [a1, a2, a3]
  have hw := w.isLt
  refine ⟨?_, ?_, ?_, ?_, ?_, ?_, ?_⟩ <;> rw [Bool.eq_iff_iff] <;>
      simp only [beq_iff_eq, decide_eq_true_eq, ← BitVec.toNat_inj] <;> simp [Nat.shiftRight_eq_div_pow, Nat.shiftLeft_eq] <;>
      omega

end Sys2Proof
end

