-- ==== Sys2Proof/Laws/Reducer.lean ====
section
/-! SUPPORT. The closed form of 42_duplicate_reducer.md R168 (first occurrences, canonical tiles, compacted slots), and the
loops of P165 over working lists. -/

namespace Sys2Proof.Machine

theorem rowsEqual_iff {a b : TileRows} : rowsEqual a b = true ↔ a = b := by
  induction a generalizing b with
  | nil => cases b <;> simp [rowsEqual]
  | cons x xs ih => cases b <;> simp [rowsEqual, ih]

/-! ### First occurrences -/

section First

variable (tiles : List TileRows)

theorem firstOf_spec (t : Nat) :
    firstOf tiles t ≤ t ∧ tileAt tiles (firstOf tiles t) = tileAt tiles t ∧
      ∀ s < firstOf tiles t, tileAt tiles s ≠ tileAt tiles t := by
  unfold firstOf
  cases h : (List.range (t + 1)).find? fun s => decide (tileAt tiles s = tileAt tiles t) with
  | none =>
    rw [List.find?_eq_none] at h
    have := h t (by simp)
    simp at this
  | some s =>
    rw [List.find?_range_eq_some] at h
    obtain ⟨h1, h2, h3⟩ := h
    simp only [List.mem_range] at h2
    refine ⟨by simpa using Nat.lt_succ_iff.1 h2, by simpa using h1, fun u hu => ?_⟩
    simpa using h3 u hu

theorem firstOf_le (t : Nat) : firstOf tiles t ≤ t := (firstOf_spec tiles t).1

theorem tileAt_firstOf (t : Nat) : tileAt tiles (firstOf tiles t) = tileAt tiles t := (firstOf_spec tiles t).2.1

theorem firstOf_le_of_eq {s t : Nat} (h : tileAt tiles s = tileAt tiles t) : firstOf tiles t ≤ s := by
  by_contra hlt
  exact (firstOf_spec tiles t).2.2 s (by omega) h

theorem firstOf_congr {s t : Nat} (h : tileAt tiles s = tileAt tiles t) : firstOf tiles s = firstOf tiles t := by
  apply Nat.le_antisymm
  · exact firstOf_le_of_eq tiles ((tileAt_firstOf tiles t).trans h.symm)
  · exact firstOf_le_of_eq tiles ((tileAt_firstOf tiles s).trans h)

theorem tileAt_eq_iff {s t : Nat} : tileAt tiles s = tileAt tiles t ↔ firstOf tiles s = firstOf tiles t := by
  refine ⟨firstOf_congr tiles, fun h => ?_⟩
  rw [← tileAt_firstOf tiles s, h, tileAt_firstOf]

theorem firstOf_firstOf (t : Nat) : firstOf tiles (firstOf tiles t) = firstOf tiles t :=
  firstOf_congr tiles (tileAt_firstOf tiles t)

theorem isCanonical_firstOf (t : Nat) : isCanonical tiles (firstOf tiles t) = true := by
  simp [isCanonical, firstOf_firstOf]

@[simp] theorem firstOf_zero : firstOf tiles 0 = 0 := Nat.le_zero.1 (firstOf_le tiles 0)

theorem not_lt_iff_isCanonical (t : Nat) : decide (firstOf tiles t < t) = !isCanonical tiles t := by
  have := firstOf_le tiles t
  simp only [isCanonical]
  by_cases h : firstOf tiles t = t
  · simp [h]
  · have h2 : firstOf tiles t < t := by omega
    simp [h, h2]

/-! ### Counting canonical tiles -/

theorem uniqueOf_succ (n : Nat) : uniqueOf tiles (n + 1) = uniqueOf tiles n + if isCanonical tiles n then 1 else 0 := by
  simp [uniqueOf, List.range_succ, List.countP_append, List.countP_cons]

theorem uniqueOf_mono {m n : Nat} (h : m ≤ n) : uniqueOf tiles m ≤ uniqueOf tiles n := by
  induction n, h using Nat.le_induction with
  | base => exact Nat.le_refl _
  | succ n _ ih => rw [uniqueOf_succ]; omega

theorem duplicatesOf_succ (n : Nat) :
    duplicatesOf tiles (n + 1) = duplicatesOf tiles n + if firstOf tiles n < n then 1 else 0 := by
  simp [duplicatesOf, List.range_succ, List.countP_append, List.countP_cons]

/-- The count invariant of R171. -/
theorem uniqueOf_add_duplicatesOf (n : Nat) : uniqueOf tiles n + duplicatesOf tiles n = n := by
  induction n with
  | zero => rfl
  | succ n ih =>
    have h := not_lt_iff_isCanonical tiles n
    rw [uniqueOf_succ, duplicatesOf_succ]
    by_cases hlt : firstOf tiles n < n
    · have hc : isCanonical tiles n = false := by simpa [hlt] using h
      simp only [hc, hlt, if_true, Bool.false_eq_true, if_false]; omega
    · have hc : isCanonical tiles n = true := by simpa [hlt] using h
      simp only [hc, hlt, if_true, if_false]; omega

theorem slotOf_eq (t : Nat) : slotOf tiles t = uniqueOf tiles (firstOf tiles t) := rfl

theorem slotOf_canonical {t : Nat} (h : isCanonical tiles t = true) : slotOf tiles t = uniqueOf tiles t := by
  rw [slotOf_eq, of_decide_eq_true h]

theorem slotOf_lt {t n : Nat} (h : t < n) : slotOf tiles t < uniqueOf tiles n := by
  have h1 := firstOf_le tiles t
  have h2 : uniqueOf tiles (firstOf tiles t + 1) ≤ uniqueOf tiles n := uniqueOf_mono tiles (by omega)
  rw [uniqueOf_succ, isCanonical_firstOf] at h2
  rw [slotOf_eq]
  simp at h2
  omega

/-- Every slot below the number of canonical tiles belongs to a canonical tile. -/
theorem exists_slot {n e : Nat} (h : e < uniqueOf tiles n) : ∃ t < n, isCanonical tiles t = true ∧ slotOf tiles t = e := by
  induction n with
  | zero => simp [uniqueOf] at h
  | succ n ih =>
    by_cases h2 : e < uniqueOf tiles n
    · obtain ⟨t, ht, hc⟩ := ih h2
      exact ⟨t, by omega, hc⟩
    · rw [uniqueOf_succ] at h
      have hc : isCanonical tiles n = true := by
        by_contra hn
        simp [hn] at h
        omega
      simp [hc] at h
      exact ⟨n, by omega, hc, by rw [slotOf_canonical tiles hc]; omega⟩

/-- A slot tells contents apart. -/
theorem slotOf_inj {s t : Nat} (h : slotOf tiles s = slotOf tiles t) : firstOf tiles s = firstOf tiles t := by
  rw [slotOf_eq, slotOf_eq] at h
  rcases Nat.lt_trichotomy (firstOf tiles s) (firstOf tiles t) with hlt | heq | hgt
  · have h2 : uniqueOf tiles (firstOf tiles s + 1) ≤ uniqueOf tiles (firstOf tiles t) := uniqueOf_mono tiles hlt
    rw [uniqueOf_succ, isCanonical_firstOf] at h2
    simp at h2
    omega
  · exact heq
  · have h2 : uniqueOf tiles (firstOf tiles t + 1) ≤ uniqueOf tiles (firstOf tiles s) := uniqueOf_mono tiles hgt
    rw [uniqueOf_succ, isCanonical_firstOf] at h2
    simp at h2
    omega

end First

/-! ### The loops of P165 -/

section Loops

variable {tiles : List TileRows} {n : Nat}

theorem getD_set {α : Type} (l : List α) (i j : Nat) (v d : α) (hi : i < l.length) :
    (l.set i v).getD j d = if j = i then v else l.getD j d := by
  simp only [List.getD_eq_getElem?_getD, List.getElem?_set]
  by_cases h : i = j
  · subst h; simp [hi]
  · simp [h, Ne.symm h]

/-- Whether the inner loop of tile `m` flags `t`. -/
def scanHits (tiles : List TileRows) (m t : Nat) : Bool := decide (m < t) && decide (tileAt tiles m = tileAt tiles t)

/-- The inner loop of P165 over `checktile = m + 1, ..., m + j`. -/
theorem reduceScan_foldl (m j : Nat) (k : ReduceWork) (hd : m + j < k.dup.length) (hi : m + j < k.im.length) :
    let k' := (List.range' (m + 1) j).foldl (reduceScan tiles m) k
    k'.dup.length = k.dup.length ∧ k'.im.length = k.im.length ∧ k'.previousDuplicates = k.previousDuplicates ∧
      (∀ t, k'.dup.getD t false = (k.dup.getD t false || (scanHits tiles m t && decide (t ≤ m + j)))) ∧
      (∀ t, k'.im.getD t 0 = if scanHits tiles m t = true ∧ t ≤ m + j then k.im.getD m 0 else k.im.getD t 0) ∧
      k'.duplicateCount = k.duplicateCount + (List.range (m + j + 1)).countP (scanHits tiles m) := by
  induction j with
  | zero =>
    have hz : (List.range (m + 0 + 1)).countP (scanHits tiles m) = 0 := by
      rw [List.countP_eq_zero]
      intro t ht
      simp only [List.mem_range] at ht
      simp [scanHits]; omega
    have hn : ∀ t, ¬ (scanHits tiles m t = true ∧ t ≤ m + 0) := by
      intro t; simp [scanHits]; omega
    refine ⟨rfl, rfl, rfl, fun t => ?_, fun t => ?_, by simp only [hz]; rfl⟩
    · have : (scanHits tiles m t && decide (t ≤ m + 0)) = false := by
        have := hn t; simpa using this
      rw [this, Bool.or_false]; rfl
    · rw [if_neg (hn t)]; rfl
  | succ j ih =>
    obtain ⟨h1, h2, h3, h4, h5, h6⟩ := ih (by omega) (by omega)
    simp only [List.range'_concat, List.foldl_append, List.foldl_cons, List.foldl_nil, Nat.one_mul] at *
    generalize (List.range' (m + 1) j).foldl (reduceScan tiles m) k = k1 at *
    have hr : List.range (m + (j + 1) + 1) = List.range (m + j + 1) ++ [m + j + 1] := by
      rw [← List.range_succ]; rfl
    have hx : m + 1 + j = m + j + 1 := by omega
    rw [hr, List.countP_append, List.countP_cons, List.countP_nil]
    simp only [reduceScan, hx]
    have hm : k1.im.getD m 0 = k.im.getD m 0 := by
      rw [h5, if_neg]; simp [scanHits]
    by_cases heq : tileAt tiles m = tileAt tiles (m + j + 1)
    · have hhit : scanHits tiles m (m + j + 1) = true := by simp [scanHits, heq]
      rw [if_pos (rowsEqual_iff.2 heq)]
      refine ⟨by simp [h1], by simp [h2], h3, fun t => ?_, fun t => ?_, by simp [h6, hhit]; omega⟩
      · rw [getD_set _ _ _ _ _ (by omega), h4]
        by_cases ht : t = m + j + 1
        · subst ht; simp [hhit]
        · have : (t ≤ m + (j + 1)) ↔ (t ≤ m + j) := by omega
          simp only [ht, this, if_false]
      · rw [getD_set _ _ _ _ _ (by omega)]
        by_cases ht : t = m + j + 1
        · subst ht
          have : m + j + 1 ≤ m + (j + 1) := by omega
          rw [if_pos rfl, hm, if_pos ⟨hhit, this⟩]
        · have : (t ≤ m + (j + 1)) ↔ (t ≤ m + j) := by omega
          simp only [ht, this, if_false, h5]
    · have hhit : scanHits tiles m (m + j + 1) = false := by simp [scanHits, heq]
      rw [if_neg (fun h => heq (rowsEqual_iff.1 h))]
      refine ⟨h1, h2, h3, fun t => ?_, fun t => ?_, by simp [h6, hhit]⟩
      · rw [h4]
        by_cases ht : t = m + j + 1
        · subst ht; simp [hhit]
        · have : (t ≤ m + (j + 1)) ↔ (t ≤ m + j) := by omega
          simp [this]
      · rw [h5]
        by_cases ht : t = m + j + 1
        · subst ht; simp [hhit]
        · have : (t ≤ m + (j + 1)) ↔ (t ≤ m + j) := by omega
          simp only [this]

/-- What the outer loop has built once tiles `0` to `m - 1` are done. -/
structure LoopInv (tiles : List TileRows) (n m : Nat) (k : ReduceWork) : Prop where
  dup_length : k.dup.length = n
  im_length : k.im.length = n
  dup : ∀ t < n, k.dup.getD t false = (decide (firstOf tiles t < t) && decide (firstOf tiles t < m))
  im : ∀ t < n, k.im.getD t 0 = if firstOf tiles t < m then slotOf tiles t else t
  prev : k.previousDuplicates = duplicatesOf tiles m
  count : k.duplicateCount =
    (List.range n).countP fun t => decide (firstOf tiles t < t) && decide (firstOf tiles t < m)

theorem loopInv_init : LoopInv tiles n 0 (reduceInit n (List.replicate n false)) where
  dup_length := by simp [reduceInit]
  im_length := by simp [reduceInit]
  dup := by
    intro t ht
    simp [reduceInit, ht]
  im := by
    intro t ht
    simp [reduceInit, ht]
  prev := rfl
  count := by
    symm
    simp [reduceInit]

theorem loopInv_succ {m : Nat} {k : ReduceWork} (hm : m < n) (h : LoopInv tiles n m k) :
    LoopInv tiles n (m + 1) (reduceTile tiles n k m) := by
  have hdm := h.dup m hm
  have hle := firstOf_le tiles m
  unfold reduceTile
  by_cases hf : firstOf tiles m < m
  · -- a flagged tile: no tile has it as its first occurrence
    have hd : k.dup.getD m false = true := by rw [hdm]; simp [hf]
    have hno : ∀ t, (firstOf tiles t < m + 1) ↔ (firstOf tiles t < m) := by
      intro t
      have : firstOf tiles t ≠ m := by
        intro he
        have := firstOf_firstOf tiles t
        rw [he] at this
        omega
      omega
    rw [if_pos hd]
    refine ⟨h.dup_length, h.im_length, ?_, ?_, ?_, ?_⟩
    · intro t ht; simp only [hno]; exact h.dup t ht
    · intro t ht; simp only [hno]; exact h.im t ht
    · simp [duplicatesOf_succ, hf, h.prev]
    · simp only [hno]; exact h.count
  · -- a canonical tile
    have hfm : firstOf tiles m = m := by omega
    have hd : ¬ k.dup.getD m false = true := by rw [hdm]; simp [hf]
    rw [if_neg hd]
    have hcan : isCanonical tiles m = true := by simp [isCanonical, hfm]
    have hslot : m - k.previousDuplicates = slotOf tiles m := by
      rw [slotOf_canonical tiles hcan, h.prev]
      have := uniqueOf_add_duplicatesOf tiles m
      omega
    have hl : m + (n - (m + 1)) = n - 1 := by omega
    obtain ⟨h1, h2, h3, h4, h5, h6⟩ :=
      reduceScan_foldl (tiles := tiles) m (n - (m + 1)) { k with im := k.im.set m (m - k.previousDuplicates) }
        (by have := h.dup_length; simp only; omega) (by have := h.im_length; simp only [List.length_set]; omega)
    have hhit : ∀ t, t < n → scanHits tiles m t = (decide (firstOf tiles t = m) && decide (firstOf tiles t < t)) := by
      intro t _
      simp only [scanHits]
      by_cases he : tileAt tiles m = tileAt tiles t
      · have := firstOf_congr tiles he
        rw [hfm] at this
        simp [he, ← this]
      · have hne : firstOf tiles t ≠ m := by
          intro hc
          exact he ((tileAt_eq_iff tiles).2 (by rw [hc, hfm]))
        simp [he, hne]
    generalize (List.range' (m + 1) (n - (m + 1))).foldl (reduceScan tiles m)
      { k with im := k.im.set m (m - k.previousDuplicates) } = k1 at *
    refine ⟨by simpa using h1.trans h.dup_length, by simpa [h.im_length] using h2, ?_, ?_, ?_, ?_⟩
    · intro t ht
      rw [h4]
      simp only [h.dup t ht, hhit t ht]
      have h7 : t ≤ m + (n - (m + 1)) := by omega
      by_cases ha : firstOf tiles t < t <;> by_cases hb : firstOf tiles t < m <;> by_cases hc : firstOf tiles t = m <;>
        simp [ha, hb, hc, h7] <;> omega
    · intro t ht
      have h7 : t ≤ m + (n - (m + 1)) := by omega
      rw [h5]
      simp only [getD_set _ _ _ _ _ (by rw [h.im_length]; exact hm), hhit t ht, h7, and_true, if_true, hslot]
      have h8 := h.im t ht
      have h9 := firstOf_le tiles t
      by_cases hc : firstOf tiles t = m
      · have hs : slotOf tiles t = slotOf tiles m := by rw [slotOf_eq, slotOf_eq, hc, hfm]
        by_cases ha : firstOf tiles t < t
        · simp [hc, hs]
          omega
        · have : t = m := by omega
          subst this
          simp [hfm]
      · have hne : t ≠ m := by rintro rfl; omega
        have h10 : (firstOf tiles t < m + 1) ↔ (firstOf tiles t < m) := by omega
        simp only [hc, decide_false, Bool.false_and, Bool.false_eq_true, if_false, hne, h8, h10]
    · rw [h3, duplicatesOf_succ, h.prev]
      simp [hf]
    · rw [h6]
      simp only [h.count]
      have hl2 : m + (n - (m + 1)) + 1 = n := by omega
      rw [hl2]
      have key : ∀ l : List Nat, (∀ t ∈ l, t < n) →
          (l.countP fun t => decide (firstOf tiles t < t) && decide (firstOf tiles t < m)) + l.countP (scanHits tiles m) =
            l.countP fun t => decide (firstOf tiles t < t) && decide (firstOf tiles t < m + 1) := by
        intro l hlt
        induction l with
        | nil => rfl
        | cons a l ih =>
          have ih := ih fun t ht => hlt t (by simp [ht])
          have ha := hhit a (hlt a (by simp))
          simp only [List.countP_cons, ha]
          rw [← ih]
          by_cases hA : firstOf tiles a < a
          · rcases Nat.lt_trichotomy (firstOf tiles a) m with hB | hB | hB
            · have h8 : firstOf tiles a ≠ m := by omega
              have h9 : firstOf tiles a < m + 1 := by omega
              simp only [hA, hB, h8, h9, decide_true, decide_false, Bool.true_and, Bool.false_and, if_true,
                Bool.false_eq_true, if_false]
              omega
            · rw [hB] at hA
              simp only [hB, hA, Nat.lt_irrefl, Nat.lt_succ_self, decide_true, decide_false, Bool.true_and, if_true,
                Bool.false_eq_true, if_false]
              omega
            · have h7 : ¬ firstOf tiles a < m := by omega
              have h8 : firstOf tiles a ≠ m := by omega
              have h9 : ¬ firstOf tiles a < m + 1 := by omega
              simp only [hA, h7, h8, h9, decide_true, decide_false, Bool.true_and, Bool.false_and,
                Bool.false_eq_true, if_false]
              omega
          · simp only [hA, decide_false, Bool.false_and, Bool.and_false, Bool.false_eq_true, if_false]
            omega
      exact key _ fun t ht => by simpa using ht

/-- P165 over working lists gives the closed form of R168. -/
theorem reduceRun_loopInv : LoopInv tiles n n (reduceRun tiles n (List.replicate n false)) := by
  have h : ∀ m ≤ n, LoopInv tiles n m ((List.range m).foldl (reduceTile tiles n) (reduceInit n (List.replicate n false))) := by
    intro m hm
    induction m with
    | zero => exact loopInv_init
    | succ m ih =>
      rw [List.range_succ, List.foldl_append]
      exact loopInv_succ (by omega) (ih (by omega))
  exact h n (Nat.le_refl n)

end Loops

theorem reduceScan_im_length (tiles : List TileRows) (tile : Nat) (l : List Nat) (k : ReduceWork) :
    (l.foldl (reduceScan tiles tile) k).im.length = k.im.length := by
  induction l generalizing k with
  | nil => rfl
  | cons a l ih =>
    rw [List.foldl_cons, ih]
    unfold reduceScan
    split <;> simp

theorem reduceRun_im_length (tiles : List TileRows) (n : Nat) (dups : List Bool) : (reduceRun tiles n dups).im.length = n := by
  have : ∀ (l : List Nat) (k : ReduceWork), (l.foldl (reduceTile tiles n) k).im.length = k.im.length := by
    intro l
    induction l with
    | nil => intro k; rfl
    | cons a l ih =>
      intro k
      rw [List.foldl_cons, ih]
      unfold reduceTile
      split
      · rfl
      · rw [reduceScan_im_length]; simp
  rw [reduceRun, this]
  simp [reduceInit]

/-- Tiles of equal rows are tiles of one first occurrence. -/
theorem readTile_eq_iff {s : State} {tiles : List TileRows} {n : Nat} (ht : readTiles s n = some tiles) {i j : Nat}
    (hi : i < n) (hj : j < n) :
   readTile s i = readTile s j ↔ firstOf tiles i = firstOf tiles j := by
  have hl := readTiles_length ht
  rw [← tileAt_eq_iff, readTiles_tile ht hi, readTiles_tile ht hj, tileAt, tileAt]
  rw [List.getD_eq_getElem?_getD, List.getD_eq_getElem?_getD, List.getElem?_eq_getElem (by omega),
      List.getElem?_eq_getElem (by omega)]
  simp

/-- The canonical tile of slot `e` is element `e` of the canonical tiles in scan order. -/
theorem nth_canonical (tiles : List TileRows) (n t : Nat) (ht : t < n) (hc : isCanonical tiles t = true) :
   ((List.range n).filter (isCanonical tiles))[(List.range t).countP (isCanonical tiles)]? = some t := by
  induction n with
  | zero => omega
  | succ n ih =>
    rw [List.range_succ, List.filter_append]
    by_cases h : t < n
    · rw [List.getElem?_append_left]
      · exact ih h
      · by_contra hge
        have := ih h
        rw [List.getElem?_eq_none (by omega)] at this
        cases this
    · have : t = n := by omega
      subst this
      rw [List.countP_eq_length_filter, List.getElem?_append_right (by simp)]
      simp [hc]

end Sys2Proof.Machine
end

