-- ==== Sys2Proof/Laws/Invariant.lean ====
section
/-! SUPPORT. What the invariant gives: the stored elements a command needs hold values, so REDUCE, EMITT and EMITM complete,
and what they leave. -/

namespace Sys2Proof.Machine

variable {s : State}

theorem accPixelClear_accZero (p : Nat) : accPixelClear accZero p := by
  simp only [accPixelClear, accRead_accZero]
  exact ⟨BitVec.getLsbD_zero, BitVec.getLsbD_zero⟩

theorem Inv.tileCount_le (h : Inv s) : tileCount s ≤ 1024 := by
  unfold tileCount
  rcases h.dims with ⟨h1, h2⟩ | ⟨-, h2, -, h4⟩
  · simp [h1]
  · exact Nat.mul_le_mul h2 h4

theorem Inv.exists_tiles (h : Inv s) {n : Nat} (hn : n ≤ s.nt.toNat) : ∃ tiles, readTiles s n = some tiles := by
  apply gather_of_isSome
  intro t ht
  rw [List.mem_range] at ht
  obtain ⟨rows, hr⟩ : ∃ rows, readTile s t = some rows := gather_of_isSome fun r hr =>
    h.rows_valued t (by omega) r (List.mem_range.1 hr)
  simp [hr]

theorem Inv.exists_dups (h : Inv s) {n : Nat} (hn : n ≤ s.nt.toNat) : ∃ dups, readDups s n = some dups := by
  apply gather_of_isSome
  intro t ht
  rw [List.mem_range] at ht
  rw [Option.isSome_map]
  exact h.dups_valued t (by omega)

theorem Inv.dups_replicate (h : Inv s) (hr : s.rdone = false) {n : Nat} (hn : n ≤ s.nt.toNat) :
    readDups s n = some (List.replicate n false) := by
  apply gather_range_eq_some (by simp)
  intro t ht
  simp [h.dups_false hr t (by omega), ht]

theorem Inv.exists_entries (h : Inv s) (hr : s.rdone = true) : ∃ es, readEntries s (tileCount s) = some es := by
  apply gather_of_isSome
  intro t ht
  obtain ⟨e, he, -⟩ := h.entries_valued hr t (List.mem_range.1 ht)
  simp [he]

/-- REDUCE completes in READY, over the stored rows and clear flags. -/
theorem Inv.reduce (h : Inv s) (hp : s.phase = .ready) :
    ∃ tiles, readTiles s (tileCount s) = some tiles ∧ tiles.length = tileCount s ∧
      exec .reduce s =
        .next (reduceCommit (tileCount s) (reduceRun tiles (tileCount s) (List.replicate (tileCount s) false)) s) := by
  obtain ⟨hn, -, -, hr⟩ := h.ready hp
  obtain ⟨tiles, ht⟩ := h.exists_tiles (Nat.le_of_eq hn.symm)
  exact ⟨tiles, ht, readTiles_length ht, exec_reduce hp h.tileCount_le ht (h.dups_replicate hr (Nat.le_of_eq hn.symm))⟩

/-- EMITT completes in REDUCED. -/
theorem Inv.emitt (h : Inv s) (hp : s.phase = .reduced) :
    ∃ tiles dups, readTiles s (tileCount s) = some tiles ∧ readDups s (tileCount s) = some dups ∧
      exec .emitt s = .next (emitBeats (emitTiles s.unique.toNat 0 dups tiles) s) := by
  obtain ⟨hn, -⟩ := h.reduced_counts (h.reduced hp)
  obtain ⟨tiles, ht⟩ := h.exists_tiles (Nat.le_of_eq hn.symm)
  obtain ⟨dups, hd⟩ := h.exists_dups (Nat.le_of_eq hn.symm)
  exact ⟨tiles, dups, ht, hd, exec_emitt hp ht hd⟩

/-- EMITM completes in REDUCED. -/
theorem Inv.emitm (h : Inv s) (hp : s.phase = .reduced) :
    ∃ es, readEntries s (tileCount s) = some es ∧
      exec .emitm s = .next (emitBeats (emitEntries s.tw.toNat (tileCount s) 0 es) s) := by
  obtain ⟨es, he⟩ := h.exists_entries (h.reduced hp)
  exact ⟨es, he, exec_emitm hp he⟩

/-- What REDUCE leaves after the loops of P165 over clear flags, in terms of the closed form (R168). -/
theorem reduceCommit_closed {tiles : List TileRows} {t : State} (hN : tileCount s ≤ 1024) (hnt : s.nt.toNat = tileCount s)
    (ht : t = reduceCommit (tileCount s) (reduceRun tiles (tileCount s) (List.replicate (tileCount s) false)) s) :
    (∀ k < tileCount s, readDup t k = some (BitVec.ofBool (decide (firstOf tiles k < k)))) ∧
      (∀ k < tileCount s, readEntry t k = some (BitVec.ofNat 10 (slotOf tiles k))) ∧
      t.unique.toNat = uniqueOf tiles (tileCount s) ∧ t.dupcnt.toNat = duplicatesOf tiles (tileCount s) ∧
      t.warn = decide (uniqueOf tiles (tileCount s) > Config.tileBudget) := by
  have L := reduceRun_loopInv (tiles := tiles) (n := tileCount s)
  generalize reduceRun tiles (tileCount s) (List.replicate (tileCount s) false) = wk at *
  have hfirst : ∀ k < tileCount s, firstOf tiles k < tileCount s := fun k hk =>
    Nat.lt_of_le_of_lt (firstOf_le tiles k) hk
  have hcount : wk.duplicateCount = duplicatesOf tiles (tileCount s) := by
    rw [L.count]
    apply List.countP_congr
    intro k hk
    have := hfirst k (List.mem_range.1 hk)
    simp [this]
  have hsum := uniqueOf_add_duplicatesOf tiles (tileCount s)
  have hu : tileCount s - wk.duplicateCount = uniqueOf tiles (tileCount s) := by omega
  have hd : ∀ n, duplicatesOf tiles (n + 1) ≤ n := by
    intro n
    have h1 := uniqueOf_add_duplicatesOf tiles (n + 1)
    have h2 : uniqueOf tiles 1 ≤ uniqueOf tiles (n + 1) := uniqueOf_mono tiles (by omega)
    have h3 : uniqueOf tiles 1 = 1 := by simp [uniqueOf, isCanonical, List.range_succ]
    omega
  subst ht
  refine ⟨fun k hk => ?_, fun k hk => ?_, ?_, ?_, ?_⟩
  · rw [readDup_reduceCommit, if_pos ⟨by omega, by rw [L.dup_length]; exact hk⟩]
    have hlt : k < wk.dup.length := by rw [L.dup_length]; exact hk
    have := L.dup k hk
    rw [List.getD_eq_getElem?_getD, List.getElem?_eq_getElem hlt, Option.getD_some] at this
    rw [List.getElem?_eq_getElem hlt, this]
    simp [hfirst k hk]
  · have hlt : k < wk.im.length := by rw [L.im_length]; exact hk
    rw [readEntry_reduceCommit hk hlt]
    have := L.im k hk
    rw [List.getD_eq_getElem?_getD, List.getElem?_eq_getElem hlt, Option.getD_some, if_pos (hfirst k hk)] at this
    rw [List.getElem?_eq_getElem hlt, this, Option.map_some]
  · simp only [reduceCommit_unique, hu, BitVec.toNat_ofNat]
    omega
  · simp only [reduceCommit_dupcnt, hcount, BitVec.toNat_ofNat]
    have : duplicatesOf tiles (tileCount s) < 1024 := by
      cases h : tileCount s with
      | zero => simp [duplicatesOf]
      | succ n => have := hd n; omega
    omega
  · simp only [reduceCommit_warn, warnFlag, hu]

/-! ### The invariant after each effect -/

/-- The invariant says nothing of the host's side. -/
theorem Inv.congr_host {s t : State} (h : Inv s)
    (e : t = { s with port := t.port, out := t.out, reads := t.reads, draws := t.draws }) : Inv t := by
  rw [e]; exact ⟨h.col, h.fault_iff, h.dims, h.idle, h.load, h.ready, h.reduced, h.reduced_counts, h.not_reduced, h.tiles_le,
      h.acc_clear, h.rows_valued, h.dups_valued, h.dups_false, h.entries_valued, h.tgrow_wf, h.tgdup_wf, h.imap_wf⟩

theorem Inv.after_raiseFault {s : State} {code : ErrCode} (hc : code ≠ .none) (h : Inv s) : Inv (raiseFault code s) where
  col := h.col
  fault_iff := by simp [hc]
  dims := h.dims
  idle := by simp
  load := by simp
  ready := by simp
  reduced := by simp
  reduced_counts := h.reduced_counts
  not_reduced := h.not_reduced
  tiles_le := h.tiles_le
  acc_clear := h.acc_clear
  rows_valued := h.rows_valued
  dups_valued := h.dups_valued
  dups_false := h.dups_false
  entries_valued := h.entries_valued
  tgrow_wf := h.tgrow_wf
  tgdup_wf := h.tgdup_wf
  imap_wf := h.imap_wf

theorem Inv.after_latchGrid {s : State} {th tw : Dim} (h : Inv s) (hd : (dimOk tw && dimOk th) = true) :
    Inv (latchGrid th tw (clearExport s)) := by
  rw [dimsOk_iff] at hd
  have hN : 1 ≤ tw.toNat * th.toNat := Nat.mul_pos (by omega) (by omega)
  constructor <;> try (simp [tileCount, readRow, readDup, readEntry]; done)
  · right; simpa [gridLegal] using hd
  · intro _; refine ⟨by simpa [gridLegal] using hd, ?_, rfl⟩; simp only [tileCount]; exact hN
  · intro p _ _; exact accPixelClear_accZero p
  · exact h.tgrow_wf
  · exact h.tgdup_wf
  · exact h.imap_wf

theorem Inv.after_refuseGrid {s : State} (h : Inv s) : Inv (refuseGrid (clearExport s)) := by
  constructor <;> try (simp [tileCount, readRow, readDup, readEntry]; done)
  · intro p _ _; exact accPixelClear_accZero p
  · exact h.tgrow_wf
  · exact h.tgdup_wf
  · exact h.imap_wf

theorem Inv.after_hardwareReset {s : State} (h : Inv s) : Inv (hardwareReset s) := by
  constructor <;> try (simp [tileCount, pixCount, readRow, readDup, readEntry]; done)
  · intro p _ _; exact accPixelClear_accZero p
  · exact h.tgrow_wf
  · exact h.tgdup_wf
  · exact h.imap_wf

theorem Inv.addPixel_clear {s : State} {v : Pixel} (h : Inv s) : ∀ p < 64, pixCount s + 1 ≤ p →
    accPixelClear (addPixel v s).acc p := by
  intro p hp h1
  have hc := h.col
  have hs := h.acc_clear p hp (by omega)
  have hr : s.r.toNat < 8 := s.r.isLt
  simp only [accPixelClear, addPixel_acc, accRead_accWrite] at hs ⊢
  by_cases e : BitVec.ofNat 3 (p / 8) = s.r
  · have e2 : p / 8 = s.r.toNat := by
      rw [← e, BitVec.toNat_ofNat]; omega
    rw [e] at hs
    simp only [if_pos e, getLsbD_orPixel hc.1 hc.2, hs.1, hs.2]
    unfold pixCount at h1
    have h3 : ¬ (15 - p % 8 = 16 - s.c.toNat) := by omega
    have h4 : ¬ (15 - p % 8 = 8 - s.c.toNat) := by omega
    have h5 : ¬ (7 - p % 8 = 16 - s.c.toNat) := by omega
    have h6 : ¬ (7 - p % 8 = 8 - s.c.toNat) := by omega
    simp [h3, h4, h5, h6]
  · simp only [if_neg e]; exact hs

theorem Inv.after_column {s : State} {v : Pixel} (h : Inv s) (hp : s.phase = .load) (hc : s.c.toNat < 8) :
    Inv { addPixel v s with c := s.c + 1 } := by
  have hl := h.load hp
  have hp1 : (addPixel v s).phase = .load := hp
  have h1 := c_succ hc
  refine { h with
    col := ?_, fault_iff := h.fault_iff, idle := ?_, load := ?_, ready := ?_, reduced_counts := ?_, acc_clear := ?_
    rows_valued := h.rows_valued, dups_valued := h.dups_valued, dups_false := h.dups_false
    entries_valued := h.entries_valued }
  · simp only [h1]; have := h.col; omega
  · simp [hp]
  · intro _; exact hl
  · simp [hp]
  · intro hr; have hr : s.rdone = true := hr; rw [hl.2.2] at hr; cases hr
  · intro p hp2 h3
    have : pixCount { addPixel v s with c := s.c + 1 } = pixCount s + 1 := by
      simp only [pixCount, h1, addPixel_r]; have := h.col; omega
    exact Inv.addPixel_clear h p hp2 (by omega)

theorem Inv.after_row {s : State} {v : Pixel} (h : Inv s) (hp : s.phase = .load) (hc : ¬ s.c.toNat < 8) (hr : s.r.toNat < 7) :
    Inv { addPixel v s with c := 1, r := s.r + 1 } := by
  have hl := h.load hp
  have h1 := r_succ hr
  refine { h with
    col := ?_, fault_iff := h.fault_iff, idle := ?_, load := ?_, ready := ?_, reduced_counts := ?_, acc_clear := ?_
    rows_valued := h.rows_valued, dups_valued := h.dups_valued, dups_false := h.dups_false
    entries_valued := h.entries_valued }
  · simp
  · simp [hp]
  · intro _; exact hl
  · simp [hp]
  · intro hr; have hr : s.rdone = true := hr; rw [hl.2.2] at hr; cases hr
  · intro p hp2 h3
    have : pixCount { addPixel v s with c := 1, r := s.r + 1 } = pixCount s + 1 := by
      simp only [pixCount, h1]; have := h.col; simp; omega
    exact Inv.addPixel_clear h p hp2 (by omega)

theorem Inv.after_commit {s : State} (h : Inv s) (hp : s.phase = .load) (hn : s.nt.toNat < 1024) {acc : Vector Word 8}
    {c : BitVec 4} {r : BitVec 3} (hc : c = 1) (hr : r = 0)
    : Inv (commitTile { s with acc := acc, c := c, r := r }) := by
  subst hc hr
  have hl := h.load hp
  have h1 := nt_succ hn
  have hT : tileCount (commitTile { s with acc := acc, c := 1, r := 0 }) = tileCount s := rfl
  have hT2 : tileCount { s with acc := acc, c := 1, r := 0 } = tileCount s := rfl
  have hP : (commitTile { s with acc := acc, c := 1, r := 0 }).phase =
      if s.nt.toNat + 1 = tileCount s then .ready else .load := by
    rw [commitTile_phase, hT2]; simp only [hp]
  have hpc : pixCount (commitTile { s with acc := acc, c := 1, r := 0 }) = 0 := rfl
  constructor
  · simp
  · rw [hP]
    have := h.fault_iff
    rw [hp] at this
    simp only [commitTile_errcode]
    split <;> simpa using this
  · exact h.dims
  · rw [hP]; split <;> simp
  · rw [hP]; split
    · simp
    · intro _; refine ⟨hl.1, ?_, hl.2.2⟩
      simp only [commitTile_nt, hT, h1]; omega
  · rw [hP]; split
    · intro _; rw [hT]; simp only [commitTile_nt, h1]; exact ⟨‹_›, by omega, hpc, hl.2.2⟩
    · simp
  · rw [hP]; split <;> simp
  · intro hr; have hr : s.rdone = true := hr; rw [hl.2.2] at hr; cases hr
  · exact h.not_reduced
  · rw [hT]; simp only [commitTile_nt, h1]; omega
  · intro p _ _; exact accPixelClear_accZero p
  · intro t ht r hr
    rw [readRow_commitTile (s := { s with acc := acc, c := 1, r := 0 }) hn hr]
    simp only [commitTile_nt, h1] at ht
    split
    · rw [accToList_getElem? _ hr]; rfl
    · exact h.rows_valued t (by simp at *; omega) r hr
  · intro t ht
    rw [readDup_commitTile (s := { s with acc := acc, c := 1, r := 0 }) hn]
    simp only [commitTile_nt, h1] at ht
    split
    · rfl
    · exact h.dups_valued t (by simp at *; omega)
  · intro hr t ht
    rw [readDup_commitTile (s := { s with acc := acc, c := 1, r := 0 }) hn]
    simp only [commitTile_nt, h1] at ht
    split
    · rfl
    · exact h.dups_false hr t (by simp at *; omega)
  · intro hr; have hr : s.rdone = true := hr; rw [hl.2.2] at hr; cases hr
  · exact memWriteRun_wf h.tgrow_wf (by simp [rowAddr]; omega)
  · exact memWrite_wf h.tgdup_wf hn
  · exact h.imap_wf

theorem Inv.after_reduce {s : State} (h : Inv s) (hp : s.phase = .ready) {tiles} (ht : readTiles s (tileCount s) = some tiles) :
   Inv (reduceCommit (tileCount s) (reduceRun tiles (tileCount s) (List.replicate (tileCount s) false)) s) ∧
   Reduced (reduceCommit (tileCount s) (reduceRun tiles (tileCount s) (List.replicate (tileCount s) false)) s) := by
  obtain ⟨hn, hN1, hpc, hr⟩ := h.ready hp
  have hN := h.tileCount_le
  obtain ⟨c1, c2, c3, c4, c5⟩ := reduceCommit_closed (tiles := tiles) hN hn rfl
  have L := reduceRun_loopInv (tiles := tiles) (n := tileCount s)
  generalize reduceRun tiles (tileCount s) (List.replicate (tileCount s) false) = wk at *
  have hT : tileCount (reduceCommit (tileCount s) wk s) = tileCount s := rfl
  have hsum := uniqueOf_add_duplicatesOf tiles (tileCount s)
  have hu1 : 1 ≤ uniqueOf tiles (tileCount s) := by
    have := slotOf_lt tiles (t := 0) (n := tileCount s) (by omega)
    omega
  constructor
  · constructor
    · exact h.col
    · have := h.fault_iff; rw [hp] at this; simpa using this
    · exact h.dims
    · simp
    · simp
    · simp
    · simp
    · intro _
      rw [hT, c3, c4, c5]
      exact ⟨hn, hN1, hpc, by omega, by omega, rfl⟩
    · simp
    · exact h.tiles_le
    · exact h.acc_clear
    · exact h.rows_valued
    · intro t ht; rw [c1 t (by simp at ht; omega)]; rfl
    · simp
    · intro _ t ht
      rw [hT] at ht
      refine ⟨_, c2 t ht, ?_⟩
      rw [c3]
      have := slotOf_lt tiles ht
      rw [BitVec.toNat_ofNat]
      exact Nat.lt_of_le_of_lt (Nat.mod_le _ _) this
    · exact h.tgrow_wf
    · exact memWriteRun_wf h.tgdup_wf (by simp [L.dup_length]; omega)
    · exact memWriteRun_wf h.imap_wf (by simp [L.im_length]; omega)
  · exact ⟨tiles, (readTiles_congr fun _ _ _ _ => rfl).trans ht, c1, c2, c3, c4⟩

theorem Reduced.congr {s t : State} (h : Reduced s) (h1 : t.tw = s.tw) (h2 : t.th = s.th)
    (h3 : ∀ k r, readRow t k r = readRow s k r)
   (h4 : ∀ k, readDup t k = readDup s k) (h5 : ∀ k, readEntry t k = readEntry s k) (h6 : t.unique = s.unique)
       (h7 : t.dupcnt = s.dupcnt) : Reduced t := by
  obtain ⟨tiles, a, b, c, d, e⟩ := h
  have hT := tileCount_congr h1 h2
  refine ⟨tiles, ?_, ?_, ?_, ?_, ?_⟩ <;> rw [hT]
  · rw [readTiles_congr fun k _ r _ => h3 k r, a]
  · intro k hk; rw [h4, b k hk]
  · intro k hk; rw [h5, c k hk]
  · rw [h6, d]
  · rw [h7, e]

end Sys2Proof.Machine
end

