-- ==== Sys2Proof/Laws/Emitter.lean ====
section
/-! SUPPORT. The beats of EMITT and EMITM by position: P192 sends the kept tiles in chunks of 16 beats, P195 one beat per
entry. -/

namespace Sys2Proof.Machine

/-! ### Lists made of chunks of one length -/

theorem flatMap_chunk_length {α β : Type} {f : α → List β} {c : Nat} {l : List α} (h : ∀ x ∈ l, (f x).length = c) :
    (l.flatMap f).length = c * l.length := by
  induction l with
  | nil => simp
  | cons a l ih =>
    simp only [List.flatMap_cons, List.length_append, List.length_cons, h a (by simp), ih fun x hx => h x (by simp [hx])]
    ring

theorem flatMap_chunk_getElem? {α β : Type} {f : α → List β} {c : Nat} {l : List α} (h : ∀ x ∈ l, (f x).length = c) (k : Nat)
    {j : Nat} (hj : j < c) : (l.flatMap f)[c * k + j]? = l[k]?.bind fun x => (f x)[j]? := by
  induction l generalizing k with
  | nil => simp
  | cons a l ih =>
    have ha : (f a).length = c := h a (by simp)
    rw [List.flatMap_cons]
    cases k with
    | zero => simp [List.getElem?_append_left (show j < (f a).length by omega)]
    | succ k =>
      have h1 : c * (k + 1) + j = (f a).length + (c * k + j) := by rw [ha]; ring
      rw [h1, List.getElem?_append_right (by omega), Nat.add_sub_cancel_left, ih fun x hx => h x (by simp [hx])]
      simp

theorem flatMap_chunk_take {α β : Type} {f : α → List β} {c : Nat} {l : List α} (h : ∀ x ∈ l, (f x).length = c) {k : Nat}
    {x : α} (hk : l[k]? = some x) : ((l.flatMap f).drop (c * k)).take c = f x := by
  have hx : (f x).length = c := h x (List.mem_of_getElem? hk)
  apply List.ext_getElem?
  intro j
  by_cases hj : j < c
  · rw [List.getElem?_take_of_lt hj, List.getElem?_drop, flatMap_chunk_getElem? h k hj, hk]
    rfl
  · rw [List.getElem?_eq_none (by simp; omega), List.getElem?_eq_none (by omega)]

/-! ### The beats of one tile -/

theorem tileBeats_length (lastTile : Bool) (r : Nat) (rows : TileRows) :
    (tileBeats lastTile r rows).length = 2 * rows.length := by
  induction rows generalizing r with
  | nil => rfl
  | cons w ws ih => simp [tileBeats, ih]; omega

/-- Beats `2r` and `2r + 1` of a tile are the two bytes of its row `r`. -/
theorem tileBeats_getElem? (lastTile : Bool) {rows : TileRows} (r q : Nat) :
    (tileBeats lastTile q rows)[2 * r]? = rows[r]?.map (fun w => ⟨rowHighByte w, false, false, false, false⟩) ∧
      (tileBeats lastTile q rows)[2 * r + 1]? =
        rows[r]?.map fun w => ⟨rowLowByte w, decide (q + r = 7), decide (q + r = 7) && lastTile, false, false⟩ := by
  induction rows generalizing r q with
  | nil => simp [tileBeats]
  | cons w ws ih =>
    cases r with
    | zero => simp [tileBeats]
    | succ r =>
      have h1 : 2 * (r + 1) = 2 * r + 1 + 1 := by omega
      have h2 : q + (r + 1) = q + 1 + r := by omega
      rw [h1, h2]
      simpa [tileBeats] using ih r (q + 1)

theorem tileBeats_bytes (lastTile : Bool) (q : Nat) (rows : TileRows) :
    (tileBeats lastTile q rows).map Beat.d = tileBytes rows := by
  induction rows generalizing q with
  | nil => rfl
  | cons w ws ih => simp [tileBeats, tileBytes, ih]

/-! ### The tiles EMITT keeps -/

/-- The tiles whose flag is clear, in scan order. -/
def keptTiles : List Bool → List TileRows → List TileRows
  | dup :: dups, rows :: tiles => if dup then keptTiles dups tiles else rows :: keptTiles dups tiles
  | _, _ => []

theorem emitTiles_eq (unique k : Nat) (dups : List Bool) (tiles : List TileRows) :
    emitTiles unique k dups tiles =
      ((keptTiles dups tiles).zipIdx k).flatMap fun p => tileBeats (decide (p.2 + 1 = unique)) 0 p.1 := by
  induction dups generalizing k tiles with
  | nil => cases tiles <;> simp [emitTiles, keptTiles]
  | cons d ds ih =>
    cases tiles with
    | nil => simp [emitTiles, keptTiles]
    | cons rows tiles => cases d <;> simp [emitTiles, keptTiles, ih]

theorem keptTiles_eq {dups : List Bool} {tiles : List TileRows} {n : Nat} (hd : dups.length = n) (ht : tiles.length = n) :
    keptTiles dups tiles = ((List.range n).filter fun t => !dups.getD t false).map (tileAt tiles) := by
  induction dups generalizing tiles n with
  | nil => subst hd; cases tiles <;> simp [keptTiles]
  | cons d ds ih =>
    subst hd
    cases tiles with
    | nil => simp at ht
    | cons rows tiles =>
      have ih := ih (tiles := tiles) rfl (by simpa using ht)
      rw [List.length_cons, List.range_succ_eq_map, List.filter_cons, List.filter_map]
      cases d <;> simp [keptTiles, ih, tileAt, Function.comp_def]

/-- The beats of EMITT, tile by tile, for the tiles whose flag is clear. -/
theorem emitTiles_kept {unique n : Nat} {dups : List Bool} {tiles : List TileRows} (hd : dups.length = n)
    (ht : tiles.length = n) (h8 : ∀ rows ∈ tiles, rows.length = 8) :
    let kept := (List.range n).filter fun t => !dups.getD t false
    (emitTiles unique 0 dups tiles).length = 16 * kept.length ∧
      ∀ k t, kept[k]? = some t →
        (((emitTiles unique 0 dups tiles).drop (16 * k)).take 16 =
          tileBeats (decide (k + 1 = unique)) 0 (tileAt tiles t)) := by
  intro kept
  have hlen : ∀ p ∈ ((keptTiles dups tiles).zipIdx 0), (tileBeats (decide (p.2 + 1 = unique)) 0 p.1).length = 16 := by
    intro p hp
    rw [tileBeats_length]
    have hm : p.1 ∈ keptTiles dups tiles := by
      have := List.mem_map_of_mem (f := Prod.fst) hp
      rwa [List.zipIdx_map_fst] at this
    rw [keptTiles_eq hd ht, List.mem_map] at hm
    obtain ⟨t, ht2, he⟩ := hm
    have htn : t < tiles.length := by
      have := (List.mem_filter.1 ht2).1
      rw [List.mem_range] at this; omega
    rw [← he, tileAt, List.getD_eq_getElem?_getD, List.getElem?_eq_getElem htn, Option.getD_some, h8 _ (List.getElem_mem htn)]
  rw [emitTiles_eq]
  refine ⟨?_, fun k t hk => ?_⟩
  · rw [flatMap_chunk_length hlen, List.length_zipIdx, keptTiles_eq hd ht, List.length_map]
  · have hz : ((keptTiles dups tiles).zipIdx 0)[k]? = some (tileAt tiles t, k) := by
      rw [List.getElem?_zipIdx, keptTiles_eq hd ht, List.getElem?_map]
      show ((kept[k]?).map _).map _ = _
      rw [hk]; simp
    rw [flatMap_chunk_take hlen hz]

/-! ### The beats of EMITM -/

theorem emitEntries_length (tw n t : Nat) (es : List TileIdx) : (emitEntries tw n t es).length = es.length := by
  induction es generalizing t with
  | nil => rfl
  | cons e es ih => simp [emitEntries, ih]

theorem emitEntries_getElem? (tw n t k : Nat) (es : List TileIdx) :
    (emitEntries tw n t es)[k]? = es[k]?.map (mapBeat tw n (t + k)) := by
  induction es generalizing t k with
  | nil => simp [emitEntries]
  | cons e es ih =>
    cases k with
    | zero => simp [emitEntries]
    | succ k =>
      have h : t + (k + 1) = t + 1 + k := by omega
      rw [h]
      simp [emitEntries, ih]

/-! ### EMITT over the stored tiles -/

theorem readDups_getD {s : State} {n : Nat} {dups : List Bool} (hd : readDups s n = some dups) {t : Nat} (ht : t < n) :
   (!dups.getD t false) = decide (readDup s t = some 0#1) := by
  have h := gather_range_getElem hd ht
  have hl := readDups_length hd
  rw [List.getElem?_eq_getElem (by omega)] at h
  rw [List.getD_eq_getElem?_getD, List.getElem?_eq_getElem (by omega), Option.getD_some]
  cases hr : readDup s t with
  | none => rw [hr] at h; cases h
  | some b =>
    rw [hr] at h
    have h : decide (b = 1#1) = dups[t] := by simpa using h
    rw [← h]
    have : ∀ b : BitVec 1, (!decide (b = 1#1)) = decide (some b = some 0#1) := by decide
    exact this b

theorem filter_readDups {s : State} {n : Nat} {dups : List Bool} (hd : readDups s n = some dups) :
   (List.range n).filter (fun t => !dups.getD t false) = (List.range n).filter fun t => decide (readDup s t = some 0#1) := by
  apply List.filter_congr
  intro t ht
  exact readDups_getD hd (List.mem_range.1 ht)

theorem readTiles_rows {s : State} {n : Nat} {tiles : List TileRows} (ht : readTiles s n = some tiles) :
    ∀ rows ∈ tiles, rows.length = 8 := by
  intro rows hr
  obtain ⟨i, hi, rfl⟩ := List.mem_iff_getElem.1 hr
  have hl := readTiles_length ht
  have h := readTiles_tile ht (show i < n by omega)
  rw [List.getElem?_eq_getElem hi] at h
  exact readTile_length h

/-- EMITT's chunk facts -/
theorem Inv.emitt_chunks {s : State} (hi : Inv s) (hp : s.phase = .reduced) :
   ∃ tiles beats, readTiles s (tileCount s) = some tiles ∧ exec .emitt s = .next { s with out := s.out ++ beats } ∧
     let kept := (List.range (tileCount s)).filter fun t => decide (readDup s t = some 0#1)
     beats.length = 16 * kept.length ∧ ∀ k t, kept[k]? = some t → (beats.drop (16 * k)).take 16 = tileBeats
         (decide (k + 1 = s.unique.toNat)) 0 (tileAt tiles t) := by
  obtain ⟨tiles, dups, ht, hd, he⟩ := hi.emitt hp
  refine ⟨tiles, _, ht, he, ?_⟩
  have := emitTiles_kept (unique := s.unique.toNat) (readDups_length hd) (readTiles_length ht) (readTiles_rows ht)
  simp only [filter_readDups hd] at this
  exact this

end Sys2Proof.Machine
end

