-- ==== Sys2Proof/Laws/Encoder.lean ====
section
/-! SUPPORT. What a run of PIX commands leaves in the accumulators, and the 64 that make a tile. -/

namespace Sys2Proof.Machine

/-- The accumulators hold the first `n` of the pixels `p` of a tile and no other bit of its 64 (20_memory.md R65). -/
def AccHolds (acc : Vector Word 8) (p : List Pixel) (n : Nat) : Prop :=
  ∀ q < 64, (accRead acc (BitVec.ofNat 3 (q / 8))).getLsbD (15 - q % 8) = (decide (q < n) && (p.getD q 0#2).getLsbD 0) ∧
    (accRead acc (BitVec.ofNat 3 (q / 8))).getLsbD (7 - q % 8) = (decide (q < n) && (p.getD q 0#2).getLsbD 1)

theorem accHolds_step {s : State} {p : List Pixel} {n : Nat} (hn : n < 64) (hc : s.c.toNat = n % 8 + 1)
    (hr : s.r.toNat = n / 8) (h : AccHolds s.acc p n) :
   AccHolds (addPixel (p.getD n 0#2) s).acc p (n + 1) := by
  intro q hq
  have h2 := h q hq
  simp only [addPixel_acc, accRead_accWrite]
  by_cases e : BitVec.ofNat 3 (q / 8) = s.r
  · have e2 : q / 8 = n / 8 := by
      rw [← hr, ← e, BitVec.toNat_ofNat]; omega
    rw [if_pos e]
    rw [e] at h2
    rw [getLsbD_orPixel (by omega) (by omega), getLsbD_orPixel (by omega) (by omega), h2.1, h2.2, hc]
    have a1 : (15 - q % 8 = 16 - (n % 8 + 1)) ↔ q = n := by omega
    have a2 : ¬ (15 - q % 8 = 8 - (n % 8 + 1)) := by omega
    have a3 : ¬ (7 - q % 8 = 16 - (n % 8 + 1)) := by omega
    have a4 : (7 - q % 8 = 8 - (n % 8 + 1)) ↔ q = n := by omega
    simp only [a1, a2, a3, a4]
    by_cases hqn : q = n
    · subst hqn; simp
    · have : (q < n + 1) ↔ (q < n) := by omega
      simp [hqn, this]
  · rw [if_neg e]
    have hne : q ≠ n := by
      rintro rfl; apply e; apply BitVec.eq_of_toNat_eq; rw [BitVec.toNat_ofNat, hr]; omega
    have : (q < n + 1) ↔ (q < n) := by omega
    simp only [this]; exact h2

/-- The first `n < 64` pixels of a tile. -/
theorem execAll_pixels {s : State} {p : List Pixel} (hp : s.phase = .load) (hc : s.c = 1) (hr : s.r = 0)
    (ha : s.acc = Vector.replicate 8 0x0000#16) (hl : p.length = 64)
    (n : Nat) (hn : n < 64) : ∃ acc c r, execAll ((p.take n).map Instr.pix) s = .next { s with acc := acc, c := c, r := r } ∧
        c.toNat = n % 8 + 1 ∧ r.toNat = n / 8 ∧ AccHolds acc p n := by
  induction n with
  | zero =>
    refine ⟨s.acc, s.c, s.r, rfl, by simp [hc], by simp [hr], ?_⟩
    intro q hq
    have : s.acc = accZero := ha
    rw [this]
    simp
  | succ n ih =>
    obtain ⟨acc, c, r, he, h1, h2, h3⟩ := ih (by omega)
    have ht : p.take (n + 1) = p.take n ++ [p.getD n 0#2] := by
      rw [List.take_add_one]; simp [List.getD_eq_getElem?_getD, show n < p.length by omega]
    rw [ht, List.map_append, execAll_append_next he, List.map_singleton, execAll_single]
    have h4 := accHolds_step (s := { s with acc := acc, c := c, r := r }) (p := p) (n := n) (by omega) h1 h2 h3
    by_cases hx : n % 8 + 1 < 8
    · refine ⟨_, c + 1, r, exec_pix_column hp (by simp only [h1]; exact hx), ?_, ?_, h4⟩
      · rw [c_succ (by omega)]; omega
      · omega
    · have : n / 8 < 7 := by omega
      refine ⟨_, 1, r + 1, exec_pix_row hp (by simp only [h1]; exact hx) (by simp only [h2]; exact this), ?_, ?_, h4⟩
      · simp; omega
      · rw [r_succ (by omega)]; omega

/-- The 64 pixels of a tile end in its commit. -/
theorem execAll_tile {s : State} {p : List Pixel} (hp : s.phase = .load) (hc : s.c = 1) (hr : s.r = 0)
    (ha : s.acc = Vector.replicate 8 0x0000#16) (hl : p.length = 64)
    (hn : s.nt.toNat < 1024) : ∃ acc, AccHolds acc p 64 ∧ execAll (p.map Instr.pix) s = .next
        (commitTile { s with acc := acc, c := 1, r := 0 }) := by
  obtain ⟨acc, c, r, he, h1, h2, h3⟩ := execAll_pixels hp hc hr ha hl 63 (by omega)
  have ht : p = p.take 63 ++ [p.getD 63 0#2] := by
    have : p.take 64 = p.take 63 ++ [p.getD 63 0#2] := by
      rw [List.take_add_one]; simp [List.getD_eq_getElem?_getD, show 63 < p.length by omega]
    rw [← this, List.take_of_length_le (by omega)]
  have h4 := accHolds_step (s := { s with acc := acc, c := c, r := r }) (p := p) (n := 63) (by omega) h1 h2 h3
  refine ⟨_, h4, ?_⟩
  conv_lhs => rw [ht]
  rw [List.map_append, execAll_append_next he, List.map_singleton, execAll_single]
  exact exec_pix_commit hp (by simp only; omega) (by simp only; omega) hn

theorem AccHolds.row {acc : Vector Word 8} {p : List Pixel} (h : AccHolds acc p 64) {r x : Nat} (hr : r < 8) (hx : x < 8) :
   (accRead acc (BitVec.ofNat 3 r)).getLsbD (15 - x) = (p.getD (8 * r + x) 0#2).getLsbD 0 ∧
       (accRead acc (BitVec.ofNat 3 r)).getLsbD (7 - x) = (p.getD (8 * r + x) 0#2).getLsbD 1 := by
  have := h (8 * r + x) (by omega)
  have e1 : (8 * r + x) / 8 = r := by omega
  have e2 : (8 * r + x) % 8 = x := by omega
  have e3 : 8 * r + x < 64 := by omega
  simpa only [e1, e2, e3, decide_true, Bool.true_and] using this

end Sys2Proof.Machine
end

