-- ==== Sys2Proof/Laws/PerInstr.lean ====
section
/-! SUPPORT. Families of one lemma per command. `EncodesInRow`: the word an assembler produces selects the command's own row of the
opcode map (30_encoding.md R96). -/

/-- The row of a command is a row of the map, and the command's word selects it. -/
def Sys2Proof.Laws.EncodesInRow.Statement (i : Sys2Proof.Instr) : Prop :=
  Sys2Proof.tableRow i ∈ Sys2Proof.opcodeTable ∧ (Sys2Proof.tableRow i).selects (Sys2Proof.encode i) = true

namespace Sys2Proof.Laws

/-- A word selects a row when it agrees with the pattern under the mask. -/
theorem selects_of_and {r : TableRow} {w : Word} (h : w &&& r.mask = r.pattern) : r.selects w = true := by
  simp [TableRow.selects, h]

theorem EncodesInRow.nop : EncodesInRow.Statement .nop := ⟨by decide, by decide⟩

theorem EncodesInRow.start (th tw : Dim) : EncodesInRow.Statement (.start th tw) := by
  refine ⟨by simp [tableRow, opcodeTable], selects_of_and ?_⟩
  apply BitVec.eq_of_getLsbD_eq
  intro i hi
  interval_cases i <;> simp [tableRow, encode]

theorem EncodesInRow.pix (v : Pixel) : EncodesInRow.Statement (.pix v) := by
  refine ⟨by simp [tableRow, opcodeTable], selects_of_and ?_⟩
  apply BitVec.eq_of_getLsbD_eq
  intro i hi
  interval_cases i <;> simp [tableRow, encode]

theorem EncodesInRow.reduce : EncodesInRow.Statement .reduce := ⟨by decide, by decide⟩

theorem EncodesInRow.emitt : EncodesInRow.Statement .emitt := ⟨by decide, by decide⟩

theorem EncodesInRow.emitm : EncodesInRow.Statement .emitm := ⟨by decide, by decide⟩

theorem EncodesInRow.sel (t : TileIdx) : EncodesInRow.Statement (.sel t) := by
  refine ⟨by simp [tableRow, opcodeTable], selects_of_and ?_⟩
  apply BitVec.eq_of_getLsbD_eq
  intro i hi
  interval_cases i <;> simp [tableRow, encode]

end Sys2Proof.Laws
end

