-- ==== Sys2Proof/Tests/Slice0.lean ====
section
/-! SUPPORT. The model's own tests: words of 95_test_vectors.md and single steps with the results it gives, an ill-formed term for
each check of WellFormed, and for every statement with hypotheses a state and operands that meet them together. -/

namespace Sys2Proof.Tests

open Sys2Proof Sys2Proof.Machine

/-! ### WellFormed refuses an ill-formed line for each check (30_encoding.md R107) -/

theorem test_wf_start_th : (Source.start 64 1).wf = false := by decide
theorem test_wf_start_tw : (Source.start 1 64).wf = false := by decide
theorem test_wf_start_accepts : (Source.start 0 63).wf = true := by decide
theorem test_wf_pix : (Source.pix 4).wf = false := by decide
theorem test_wf_sel : (Source.sel 1024).wf = false := by decide
theorem test_wf_raw : (Source.raw 65536).wf = false := by decide
theorem test_wf_row8_length : (Source.row8 [0, 1, 2, 3, 0, 1, 2]).wf = false := by decide
theorem test_wf_row8_value : (Source.row8 [0, 1, 2, 4, 0, 1, 2, 3]).wf = false := by decide
theorem test_wf_tile_length : (Source.tile (List.replicate 63 0)).wf = false := by decide
theorem test_wf_tile_value : (Source.tile (4 :: List.replicate 63 0)).wf = false := by decide
theorem test_wf_fill : (Source.fill 4 1).wf = false := by decide

/-! ### Encodings (V-ENC-1, V-ENC-2) -/

/-- Every constructor, its word written out field by field from the patterns of R96. -/
theorem test_decode_rows :
    decode 0b0000000000000000#16 = .ok .nop ∧ decode 0b0001000010000011#16 = .ok (.start 2#6 3#6) ∧
      decode 0b0010000000000010#16 = .ok (.pix 2#2) ∧ decode 0b0011000000000000#16 = .ok .reduce ∧
      decode 0b0100000000000000#16 = .ok .emitt ∧ decode 0b0101000000000000#16 = .ok .emitm ∧
      decode 0b0110001111111111#16 = .ok (.sel 1023#10) := by decide

theorem test_decode_start_fields :
    decode 0x129A#16 = .ok (.start 10#6 26#6) ∧ decode 0x1801#16 = .ok (.start 32#6 1#6) ∧
      decode 0x1060#16 = .ok (.start 1#6 32#6) ∧ decode 0x1000#16 = .ok (.start 0#6 0#6) ∧
      decode 0x1FFF#16 = .ok (.start 63#6 63#6) := by decide

theorem test_decode_pix_masked :
    decode 0x2FFF#16 = .ok (.pix 3#2) ∧ decode 0x2FFC#16 = .ok (.pix 0#2) ∧ decode 0x2ABD#16 = .ok (.pix 1#2) ∧
      decode 0x2107#16 = .ok (.pix 3#2) := by decide

theorem test_decode_illegal :
    ([0x0001#16, 0x0800#16, 0x3001#16, 0x4800#16, 0x5010#16, 0x6400#16, 0x6800#16, 0x6FFF#16, 0x7000#16, 0x8000#16, 0x9000#16,
      0xA000#16, 0xB000#16, 0xC000#16, 0xD000#16, 0xE000#16, 0xFFFF#16].all fun w => (decodeTableWord 16 w.toNat).isNone) =
      true := by decide

theorem test_encode :
    [.start 1 1, .start 2 3, .start 16 16, .start 32 32, .start 33 1, .pix 3, .sel 5, .sel 1023].map encode =
      [0x1041#16, 0x1083#16, 0x1410#16, 0x1820#16, 0x1841#16, 0x2003#16, 0x6005#16, 0x63FF#16] := by decide

theorem test_decodeTableWord : decodeTableWord 16 0x6100 = some (.sel 256#10) := by decide

/-! ### Small states -/

/-- Solid colours 1 and 3 and the diagonal tile of V-PIX-6. -/
def solid1 : TileRows := List.replicate 8 0xFF00#16
def solid3 : TileRows := List.replicate 8 0xFFFF#16
def diag : TileRows := [0x8001#16, 0x4002#16, 0x2004#16, 0x1008#16, 0x0810#16, 0x0420#16, 0x0240#16, 0x0180#16]

/-- A LOAD state of a 1 x 1 grid at the pixel of column `c`, row `r`, with clear accumulators. -/
def loading (c : BitVec 4) (r : BitVec 3) : State := { State.reset with phase := .load, tw := 1, th := 1, c := c, r := r }

/-- A READY state of a `th` x `tw` grid with the given tiles. -/
def loaded (th tw : Dim) (tiles : List TileRows) : State :=
  { State.reset with
    phase := .ready, tw := tw, th := th, nt := BitVec.ofNat 11 tiles.length
    tgrow := memWriteRun [] 0 tiles.flatten, tgdup := memWriteRun [] 0 (tiles.map fun _ => 0#1) }

/-- A REDUCED state of a `th` x `tw` grid with the given tiles, flags and entries. -/
def reduced (th tw : Dim) (tiles : List TileRows) (dups : List (BitVec 1)) (entries : List TileIdx) (unique : TileCnt) : State :=
  { loaded th tw tiles with
    phase := .reduced, rdone := true, tgdup := memWriteRun [] 0 dups, imap := memWriteRun [] 0 entries, unique := unique
    dupcnt := BitVec.ofNat 10 (tiles.length - unique.toNat) }

/-- The end of V-RED-5: a 2 x 3 grid of A B A C B A. -/
def grid6 : State := reduced 2 3 [solid1, diag, solid1, solid3, diag, solid1] [0, 0, 1, 0, 1, 1] [0, 1, 0, 2, 1, 0] 3

/-- A faulted state. -/
def faulted : State := { State.reset with phase := .fault, errcode := .seq }

/-- The outcome is exactly this next state (outcomes themselves have no decidable equality). -/
def answers (o : Host.Outcome State Fault Refusal) (t : State) : Bool :=
  match o with
  | .next u => decide (u = t)
  | .fault _ => false
  | .refused _ => false

theorem answers_iff {o : Host.Outcome State Fault Refusal} {t : State} : answers o t = true ↔ o = .next t := by
  cases o <;> simp [answers]

/-! ### Single steps -/

theorem test_nop :
    answers (step (State.reset.withFetchWord 16 0x0000)) State.reset := by decide

/-- V-CTL-2. -/
theorem test_start :
    answers (step (State.reset.withFetchWord 16 0x1083))
      ({ State.reset with phase := .load, tw := 3, th := 2 }) := by decide

/-- V-CTL-4: `START 48, 16`, per axis. -/
theorem test_start_range :
    answers (step ((loading 3 1).withFetchWord 16 0x1C10))
      ({ State.reset with phase := .fault, errcode := .range }) := by decide

/-- V-PIX-1: a pixel of value 3 at column 3. -/
theorem test_pix_column :
    answers (exec (.pix 3) (loading 3 0))
      ({ loading 4 0 with acc := accWrite accZero 0 0x2020#16 }) := by decide

/-- V-PIX-4: the 64th pixel commits. -/
theorem test_pix_commit :
    answers (exec (.pix 3) { loading 8 7 with acc := Vector.ofFn fun i => if i = 7 then 0xFEFE#16 else 0xFFFF#16 })
      (loaded 1 1 [solid3]) := by decide

/-- V-RED-5. -/
theorem test_reduce :
    answers (exec .reduce (loaded 2 3 [solid1, diag, solid1, solid3, diag, solid1]))
      grid6 := by decide

/-- V-FLT-1: REDUCE in REDUCED keeps RDONE, STATUS reads 0x0074. -/
theorem test_reduce_again :
    answers (exec .reduce grid6)
      ({ grid6 with phase := .fault, errcode := .seq }) := by decide

/-- V-EMT-1: one tile of solid colour 1. -/
theorem test_emitt :
    answers (exec .emitt (reduced 1 1 [solid1] [0] [0] 1))
      ({ reduced 1 1 [solid1] [0] [0] 1 with
        out := (List.range 16).map fun k =>
          ⟨if k % 2 = 0 then 0xFF#8 else 0x00#8, decide (k = 15), decide (k = 15), false, false⟩ }) := by decide

/-- V-EMM-1. -/
theorem test_emitm :
    answers (exec .emitm grid6)
      ({ grid6 with
        out := [⟨0, false, false, true, false⟩, ⟨1, false, false, true, false⟩, ⟨0, true, false, true, false⟩,
          ⟨2, false, false, true, false⟩, ⟨1, false, false, true, false⟩, ⟨0, true, true, true, false⟩] }) := by decide

/-- V-BIG-2: the beat of entry 259 carries 03 with `ovf`. -/
theorem test_map_overflow : mapBeat 26 260 259 259#10 = ⟨0x03#8, true, true, true, true⟩ := by decide

theorem test_sel :
    answers (exec (.sel 5) (loading 3 1))
      ({ loading 3 1 with sel := 5 }) := by decide

/-- V-FLT-3: dropped in FAULT. -/
theorem test_sel_dropped :
    answers (step (faulted.withFetchWord 16 0x6005))
      faulted := by decide

/-- V-FLT-4: decode before phase. -/
theorem test_illegal :
    answers (step (State.reset.withFetchWord 16 0x3001))
      ({ State.reset with phase := .fault, errcode := .illegal }) := by decide

/-- V-FLT-3: an illegal word in FAULT is dropped. -/
theorem test_illegal_dropped :
    answers (step (faulted.withFetchWord 16 0x7123))
      faulted := by decide

/-- V-FLT-6. -/
theorem test_reset_out_of_fault :
    answers (step { faulted with port := [.hardReset] }) State.reset := by decide

/-- A reset during EMITT after two beats were taken (R260). -/
theorem test_reset_during_emitt :
    answers (step { reduced 1 1 [solid1] [0] [0] 1 with port := [.resetDuring 0x4000#16 2] })
      ({ hardwareReset (reduced 1 1 [solid1] [0] [0] 1) with
        out := [⟨0xFF, false, false, false, false⟩, ⟨0x00, false, false, false, false⟩] }) := by decide

/-- V-WIN-2. -/
theorem test_window :
    ((List.range 32).map fun a => windowShown { grid6 with sel := 1 } (BitVec.ofNat 5 a)) =
      ([0x0043#16, 3, 2, 6, 0, 3, 3, 1, 1, 0, 0, 0, 0, 0, 0, 0] ++ diag ++ List.replicate 8 0).map Shown.value := by decide

/-- V-WIN-1: what holds no value is UNSPEC of its width. -/
theorem test_window_valueless :
    [0x08#5, 0x09#5, 0x10#5, 0x17#5].map (windowShown State.reset) = [.unspec 10, .unspec 1, .unspec 16, .unspec 16] := by decide

/-- V-BIG-2: STATUS with WARN after a clean REDUCE. -/
theorem test_status : statusWord { State.reset with phase := .reduced, rdone := true, warn := true } = 0x004B#16 := by decide

/-- V-BIG-1 and V-BIG-2: the budget is exceeded strictly. -/
theorem test_warn : warnFlag 256 = false ∧ warnFlag 257 = true := by decide

/-- V-PIX-6: decoding row 3 of the diagonal tile. -/
theorem test_decodePixel : ((List.range 8).map (decodePixel (tileBytes diag) 3)) = [0, 0, 0, 1, 2, 0, 0, 0] := by decide

/-! ### Assembler, consumer, host -/

theorem test_assemble :
    assembleText "START 10, 0x1A ; a comment\n\n  PIX 3\n.word 0x7000\nROW8 1,0,3,0,2,1,0,3\nEXPORT".toList =
      .ok [0x129A#16, 0x2003#16, 0x7000#16, 0x2001#16, 0x2000#16, 0x2003#16, 0x2000#16, 0x2002#16, 0x2001#16, 0x2000#16, 0x2003#16,
        0x3000#16, 0x4000#16, 0x5000#16] := by decide

theorem test_assemble_refuses :
    assembleText "SEL 1024".toList = .error (.operandRange (.sel 1024)) ∧
      assembleText "NOP 1".toList = .error (.badOperands "NOP".toList) := by decide

/-- V-EMT-5. -/
theorem test_hexToken : hexToken 0x0A#8 = ['0', 'A'] ∧ hexToken 0xA5#8 = ['A', '5'] := by decide

/-- R201 and R202: no separator after the last tile, a line break after the last map row. -/
theorem test_render :
    renderTiles ['|'] [] [⟨0xFF, true, false, false, false⟩, ⟨0x01, true, true, false, false⟩] = ['F', 'F', '|', '0', '1'] ∧
      renderMap ['/'] [] [⟨0x00, false, false, true, false⟩, ⟨0x01, true, true, true, false⟩] = ['0', '0', '0', '1', '/'] := by
  decide

/-- R63, R64: tile 1 of a 2-tile row begins at pixel column 8. -/
theorem test_image_order :
    (((⟨16, 8, fun x y => BitVec.ofNat 2 (x / 8 + 2 * (y / 4))⟩ : Image).tile 1).take 1,
      ((⟨16, 8, fun x y => BitVec.ofNat 2 (x / 8 + 2 * (y / 4))⟩ : Image).tile 1).getD 63 0) = ([1#2], 3#2) := by decide

/-! ### States with the invariant -/

theorem inv_reset : Inv State.reset := by constructor <;> decide

theorem inv_loading : Inv (loading 3 0) := by constructor <;> decide

theorem inv_ready : Inv (loaded 1 1 [solid1]) := by constructor <;> decide

theorem inv_grid6 : Inv grid6 := by
  constructor
  case entries_valued =>
    intro _ t ht
    have h : ∀ t < 6, ∃ e ∈ [0#10, 1#10, 2#10], readEntry grid6 t = some e ∧ e.toNat < grid6.unique.toNat := by decide
    exact (h t ht).imp fun _ h => h.2
  all_goals decide

theorem reduced_grid6 : Reduced grid6 :=
  ⟨[solid1, diag, solid1, solid3, diag, solid1], by decide, by decide, by decide, by decide, by decide⟩

theorem reducedInv_grid6 : ReducedInv grid6 := fun _ => reduced_grid6

/-! ### Witnesses: for every statement with hypotheses, a state and operands that meet them, clause by clause -/

theorem witness_DecodeFollowsOpcodeMap : decode 0x63FF#16 = .ok (.sel 1023) ∧ decode 0x6400#16 = .error (.selHighBits 0x400) := by
  decide

theorem witness_DecodedOperandsAreLiteralFields :
    decode 0x1FFF#16 = .ok (.start 63 63) ∧ decode 0x2FFF#16 = .ok (.pix 3) ∧ decode 0x63FF#16 = .ok (.sel 1023) := by decide

theorem witness_PixUpperBitsAreIgnored : (0x2FFC#16).extractLsb' 12 4 = 0x2#4 := by decide

theorem witness_IllegalWordRaisesErrIllegal :
    (State.reset.withFetchWord 16 0x6FFF).port = [.command 0x6FFF] ∧ State.reset.phase ≠ .fault ∧ IllegalRange 0x6FFF := by
  refine ⟨by decide, by decide, ?_⟩
  unfold IllegalRange
  decide

theorem witness_PseudoInstructionsExpand :
    (Source.row8 [0, 1, 2, 3, 3, 2, 1, 0]).wf = true ∧ (Source.tile (List.replicate 64 3)).wf = true ∧
      (Source.fill 3 0).wf = true ∧ (Source.fill 3 64).wf = true := by decide

theorem witness_ResetLeavesTheTableValues : { grid6 with port := [.hardReset] }.port = .hardReset :: [] := rfl

theorem witness_ResetDuringACommandAbandonsIt :
    ∃ s : State, Inv s ∧ s.port = .resetDuring 0x4000 47 :: [] :=
  ⟨{ grid6 with port := [.resetDuring 0x4000 47] }, by obtain ⟨⟩ := inv_grid6; constructor <;> assumption, rfl⟩

theorem witness_ResetAndStartDifferInTwoThings :
    { grid6 with port := [.hardReset] }.port = .hardReset :: [] ∧ 1 ≤ (1 : Dim).toNat ∧ (1 : Dim).toNat ≤ 32 ∧
      1 ≤ (32 : Dim).toNat ∧ (32 : Dim).toNat ≤ 32 := by decide

/-- The step of a REDUCE keeps both invariants; so does one that leaves REDUCED. -/
theorem witness_StepKeepsInvariant : Inv (loaded 1 1 [solid1]) ∧ ∃ t, step (loaded 1 1 [solid1]) = .next t := ⟨inv_ready, _, rfl⟩

theorem witness_StepAlwaysContinues : Inv State.reset ∧ Inv (loading 3 0) ∧ Inv (loaded 1 1 [solid1]) ∧ Inv grid6 :=
  ⟨inv_reset, inv_loading, inv_ready, inv_grid6⟩

theorem witness_StepKeepsReducedResults : Inv grid6 ∧ ReducedInv grid6 ∧ grid6.rdone = true ∧ ∃ t, step grid6 = .next t :=
  ⟨inv_grid6, reducedInv_grid6, rfl, _, rfl⟩

theorem witness_StepRunsTheDecodedCommand :
    (State.reset.withFetchWord 16 0x1820).port = .command 0x1820 :: [] ∧ decode 0x1820#16 = .ok (.start 32 32) := by decide

theorem witness_IdlePortHoldsState : State.reset.port = [] := rfl

theorem witness_StartOutOfRangeLeavesResetState :
    (0 : Dim).toNat = 0 ∧ 32 < (33 : Dim).toNat ∧ (1 ≤ (1 : Dim).toNat ∧ (1 : Dim).toNat ≤ 32) ∧
      1 ≤ (32 : Dim).toNat ∧ (32 : Dim).toNat ≤ 32 := by decide

theorem witness_SelSetsSelAndNothingElse : faulted.phase = .fault ∧ grid6.phase ≠ .fault := by decide

theorem witness_SelInfluencesNoOtherCommand :
    (∀ th tw, Instr.reduce ≠ .start th tw) ∧ (∀ y, Instr.reduce ≠ .sel y) ∧ ∃ t, exec .reduce (loaded 1 1 [solid1]) = .next t :=
  ⟨nofun, nofun, _, rfl⟩

theorem witness_NonStoringCommandsLeaveMemory :
    (∃ t, exec .nop grid6 = .next t) ∧ (∃ t, exec (.start 0 33) grid6 = .next t) ∧ (∃ t, exec (.sel 1023) grid6 = .next t) ∧
      (∃ t, exec .emitt grid6 = .next t) ∧ ∃ t, exec .emitm grid6 = .next t :=
  ⟨⟨_, rfl⟩, ⟨_, rfl⟩, ⟨_, rfl⟩, ⟨_, rfl⟩, ⟨_, rfl⟩⟩

/-- Its three clauses: a column below 8, column 8 of a row below 7, column 8 of row 7; and the greatest NT. -/
theorem witness_PixAccumulatesAdvancesAndCommits :
    (∀ s ∈ [loading 1 7, loading 7 7, loading 8 0, loading 8 6, loading 8 7, { loading 8 7 with nt := 1023 }],
        s.phase = .load ∧ 1 ≤ s.c.toNat ∧ s.c.toNat ≤ 8 ∧ s.nt.toNat < 1024) ∧
      (loading 7 7).c.toNat < 8 ∧ ((loading 8 6).c.toNat = 8 ∧ (loading 8 6).r.toNat < 7) ∧
      (loading 8 7).c.toNat = 8 ∧ (loading 8 7).r.toNat = 7 := by decide

theorem witness_SixtyFourPixelsEncodeATile :
    ∃ (s : State) (p : List Pixel), s.phase = .load ∧ s.c = 1 ∧ s.r = 0 ∧ s.acc = Vector.replicate 8 0x0000#16 ∧
      s.nt.toNat < 1024 ∧ p.length = 64 :=
  ⟨loading 1 0, List.replicate 64 3, by decide⟩

theorem witness_EncodedTileRoundTrips :
    ∃ (s t : State) (p : List Pixel), s.phase = .load ∧ s.c = 1 ∧ s.r = 0 ∧ s.acc = Vector.replicate 8 0x0000#16 ∧
      s.nt.toNat < 1024 ∧ p.length = 64 ∧ execAll (p.map Instr.pix) s = .next t ∧ readTile t s.nt.toNat = readTile t s.nt.toNat :=
  ⟨loading 1 0, loaded 1 1 [solid3], List.replicate 64 3, by decide, by decide, by decide, by decide, by decide, by decide,
    answers_iff.1 (by decide), rfl⟩

theorem witness_TileDependsOnItsPixelsAlone :
    ∃ (s u : State) (p : List Pixel), p.length = 64 ∧ s.phase = .load ∧ u.phase = .load ∧ s.c = 1 ∧ u.c = 1 ∧ s.r = 0 ∧ u.r = 0 ∧
      s.acc = Vector.replicate 8 0x0000#16 ∧ u.acc = Vector.replicate 8 0x0000#16 ∧ s.nt.toNat < 1024 ∧ u.nt.toNat < 1024 ∧
      s.nt ≠ u.nt ∧ s.tw ≠ u.tw :=
  ⟨loading 1 0, { loading 1 0 with nt := 1023, tw := 32, th := 32, sel := 7 }, List.replicate 64 2, by decide⟩

theorem witness_PixOutOfPhaseFaults : State.reset.phase = .idle ∧ grid6.phase = .reduced ∧ (loaded 1 1 [solid1]).phase = .ready := by
  decide

theorem witness_PixFrame :
    (∃ t, exec (.pix 3) (loading 3 1) = .next t ∧ t.nt = (loading 3 1).nt) ∧
      ∃ t, exec (.pix 3) (loading 8 7) = .next t ∧ t.nt ≠ (loading 8 7).nt :=
  ⟨⟨_, rfl, by decide⟩, ⟨_, rfl, by decide⟩⟩

theorem witness_CommittedRowsNeverChange :
    (∀ th tw, Instr.reduce ≠ .start th tw) ∧ (∃ t, exec .reduce (loaded 1 1 [solid1]) = .next t) ∧
      0 < (loaded 1 1 [solid1]).nt.toNat :=
  ⟨nofun, ⟨_, rfl⟩, by decide⟩

theorem witness_ReduceComputesTheClosedForm : Inv (loaded 1 1 [solid1]) ∧ (loaded 1 1 [solid1]).phase = .ready := ⟨inv_ready, rfl⟩

theorem witness_ReduceSetsCountsFlagsAndFrame : Inv (loaded 1 1 [solid1]) ∧ (loaded 1 1 [solid1]).phase = .ready := ⟨inv_ready, rfl⟩

/-- Two equal tiles and a third that differs. -/
theorem witness_ReduceResultProperties :
    ∃ s t : State, Inv s ∧ s.phase = .ready ∧ exec .reduce s = .next t ∧ 0 < tileCount s ∧ readTile s 0 = readTile s 1 ∧
      readTile s 0 ≠ readTile s 2 :=
  ⟨loaded 1 3 [solid1, solid1, diag], _, by constructor <;> decide, rfl, rfl, by decide, by decide, by decide⟩

theorem witness_ReduceOutOfPhaseFaults :
    State.reset.phase = .idle ∧ (loading 1 0).phase = .load ∧ grid6.phase = .reduced ∧
      ∃ t, grid6.phase ≠ .fault ∧ exec .reduce grid6 = .next t ∧ t.phase = .fault :=
  ⟨rfl, rfl, rfl, _, by decide, rfl, rfl⟩

theorem witness_ResultsAreFinal :
    ∃ s t : State, s.phase = .reduced ∧ s.port = .command 0x4000 :: [] ∧ (∀ th tw, decode 0x4000#16 ≠ .ok (.start th tw)) ∧
      step s = .next t :=
  ⟨grid6.withFetchWord 16 0x4000, _, rfl, by decide,
    fun th tw h => absurd (show Except.ok (α := Instr) (ε := DecodeError) .emitt = .ok (.start th tw) from h) nofun, rfl⟩

/-- Of every statement that assumes the two invariants and REDUCED (EmittSendsTheCanonicalTiles,
EmittSendsSixteenBeatsPerUniqueTile, EmitmSendsTheIndexMap, MapOverflowsExactlyUnderWarning, MapPointsAtTheEmittedTile,
TextHasOneSeparatorBetweenTiles). -/
theorem witness_reduced_export : Inv grid6 ∧ ReducedInv grid6 ∧ grid6.phase = .reduced := ⟨inv_grid6, reducedInv_grid6, rfl⟩

theorem witness_EmitOutOfPhaseFaults :
    State.reset.phase = .idle ∧ (loading 1 0).phase = .load ∧ (loaded 1 1 [solid1]).phase = .ready ∧
      ∃ t, State.reset.phase ≠ .fault ∧ exec .emitm State.reset = .next t ∧ t.phase = .fault :=
  ⟨rfl, rfl, rfl, _, by decide, rfl, rfl⟩

theorem witness_EmittingAgainSendsTheSameBeats :
    grid6.phase = .reduced ∧ (∃ t, exec .emitt grid6 = .next t) ∧ ∃ t, exec .emitm grid6 = .next t := ⟨rfl, ⟨_, rfl⟩, ⟨_, rfl⟩⟩

theorem witness_OnlyEmittAndEmitmEmit : ∃ t, exec .emitm grid6 = .next t ∧ t.out ≠ [] := ⟨_, rfl, by decide⟩

/-- Both clauses: a PIX in IDLE, a START out of range. -/
theorem witness_FaultEntryWritesErrcodeAndPhase :
    (∃ s t : State, s.phase ≠ .fault ∧ s.port = .command 0x2003 :: [] ∧ step s = .next t ∧ t.phase = .fault ∧
        ∀ th tw, decode 0x2003#16 ≠ .ok (.start th tw)) ∧
      ∃ s t : State, s.phase ≠ .fault ∧ s.port = .command 0x1841 :: [] ∧ step s = .next t ∧ t.phase = .fault ∧
        decode 0x1841#16 = .ok (.start 33 1) :=
  ⟨⟨State.reset.withFetchWord 16 0x2003, _, by decide, by decide, rfl, rfl,
      fun th tw h => absurd (show Except.ok (α := Instr) (ε := DecodeError) (.pix 3) = .ok (.start th tw) from h) nofun⟩,
    ⟨State.reset.withFetchWord 16 0x1841, _, by decide, by decide, rfl, rfl, by decide⟩⟩

theorem witness_FaultDropsEverythingButStart :
    ∃ s : State, s.phase = .fault ∧ s.port = .command 0x6005 :: [] ∧ ∀ th tw, decode 0x6005#16 ≠ .ok (.start th tw) :=
  ⟨faulted.withFetchWord 16 0x6005, rfl, by decide,
    fun th tw h => absurd (show Except.ok (α := Instr) (ε := DecodeError) (.sel 5) = .ok (.start th tw) from h) nofun⟩

/-- Out by a START, by a reset, by a reset during a word; and a START that faults again. -/
theorem witness_OnlyStartOrResetLeavesFault :
    (∃ s t : State, s.phase = .fault ∧ s.port = .command 0x1041 :: [] ∧ decode 0x1041#16 = .ok (.start 1 1) ∧ step s = .next t ∧
        t.phase ≠ .fault) ∧
      (∃ s t : State, s.phase = .fault ∧ s.port = .hardReset :: [] ∧ step s = .next t ∧ t.phase ≠ .fault) ∧
      (∃ s t : State, s.phase = .fault ∧ s.port = .resetDuring 0x0000 0 :: [] ∧ step s = .next t ∧ t.phase ≠ .fault) ∧
      ∃ s t : State, s.phase = .fault ∧ s.port = .command 0x1000 :: [] ∧ decode 0x1000#16 = .ok (.start 0 0) ∧ step s = .next t :=
  ⟨⟨faulted.withFetchWord 16 0x1041, _, rfl, by decide, by decide, rfl, by decide⟩,
    ⟨{ faulted with port := [.hardReset] }, _, rfl, rfl, rfl, by decide⟩,
    ⟨{ faulted with port := [.resetDuring 0x0000 0] }, _, rfl, rfl, rfl, by decide⟩,
    ⟨faulted.withFetchWord 16 0x1000, _, rfl, by decide, by decide, rfl⟩⟩

/-- A step of each kind of transition. -/
theorem witness_PhaseMachineTransitions :
    (∃ t, exec (.start 1 1) grid6 = .next t ∧ t.phase ≠ grid6.phase) ∧
      (∃ t, exec (.pix 3) (loading 8 7) = .next t ∧ t.phase = .ready) ∧
      (∃ t, exec .reduce (loaded 1 1 [solid1]) = .next t ∧ t.phase = .reduced) ∧
      ∃ t, exec .emitt State.reset = .next t ∧ t.phase = .fault :=
  ⟨⟨_, rfl, by decide⟩, ⟨_, rfl, rfl⟩, ⟨_, rfl, rfl⟩, ⟨_, rfl, rfl⟩⟩

/-- One state for each stop; none of them has the invariant. -/
theorem witness_StopsOutsideEveryRun :
    (∃ s : State, s.phase = .load ∧ 8 ≤ s.c.toNat ∧ s.r.toNat = 7 ∧ 1024 ≤ s.nt.toNat) ∧
      (∃ s : State, s.phase = .ready ∧ 1024 < tileCount s) ∧
      (∃ s : State, 0 < tileCount s ∧ readRow s 0 0 = none ∧ s.phase = .ready ∧ tileCount s ≤ 1024) ∧
      (∃ s : State, 0 < tileCount s ∧ readRow s 0 7 = none ∧ s.phase = .reduced ∧ ∀ j < tileCount s, readDup s j ≠ none) ∧
      (∃ s : State, 0 < tileCount s ∧ readDup s 0 = none ∧ s.phase = .ready ∧ tileCount s ≤ 1024 ∧
        ∀ j < tileCount s, ∀ r < 8, readRow s j r ≠ none) ∧
      (∃ s : State, 0 < tileCount s ∧ readDup s 0 = none ∧ s.phase = .reduced) ∧
      ∃ s : State, 0 < tileCount s ∧ readEntry s 0 = none ∧ s.phase = .reduced :=
  ⟨⟨{ loading 8 7 with nt := 1024 }, by decide⟩, ⟨{ loaded 1 1 [] with tw := 33, th := 32 }, by decide⟩,
    ⟨loaded 1 1 [], by decide⟩, ⟨reduced 1 1 [solid1.take 7] [0] [0] 1, by decide⟩,
    ⟨{ loaded 1 1 [solid1] with tgdup := [] }, by decide⟩, ⟨reduced 1 1 [] [] [] 1, by decide⟩,
    ⟨reduced 1 1 [] [] [] 1, by decide⟩⟩

theorem witness_StatusFields : { faulted with port := [.read 0x00] }.port = .read 0x00 :: [] := rfl

theorem witness_WindowReadsChangeNoState : { faulted with port := [.read 0x1F] }.port = .read 0x1F :: [] := rfl

/-- At the ends of its three ranges, and with its last hypothesis. -/
theorem witness_WindowShowsTheRegisters :
    (∀ a ∈ [0x00#5, 0x07#5, 0x0A#5, 0x0F#5, 0x18#5, 0x1F#5],
        { State.reset with port := [.read a] }.port = .read a :: [] ∧
          (a.toNat < 0x08 ∨ (0x0A ≤ a.toNat ∧ a.toNat ≤ 0x0F) ∨ 0x18 ≤ a.toNat)) ∧
      Inv State.reset ∧ State.reset.rdone = false ∧ State.reset.r = 0 ∧ State.reset.c = 1 :=
  ⟨by decide, inv_reset, rfl, rfl, rfl⟩

/-- A tile that holds values and one that does not. -/
theorem witness_WindowShowsTheSelectedTile :
    (∀ a ∈ [0x08#5, 0x09#5, 0x10#5, 0x17#5], { grid6 with port := [.read a] }.port = .read a :: []) ∧ Inv grid6 ∧
      readEntry grid6 grid6.sel.toNat = some 0#10 ∧ readDup grid6 grid6.sel.toNat = some 0#1 ∧
      readRow grid6 grid6.sel.toNat 7 = some 0xFF00#16 ∧ readEntry { grid6 with sel := 6 } 6 = none ∧
      readDup { grid6 with sel := 6 } 6 = none ∧ readRow { grid6 with sel := 6 } 6 0 = none :=
  ⟨by decide, inv_grid6, by decide⟩

/-- Reset with and without the leftovers of an earlier export. -/
theorem witness_StaleContentsAreNeverObserved :
    SameValued State.reset { State.reset with tgrow := [(0, 5#16)], tgdup := [(0, 1#1)], imap := [(3, 9#10)] } := by
  refine ⟨rfl, rfl, rfl, rfl, rfl, rfl, rfl, rfl, rfl, rfl, rfl, rfl, rfl, fun k r _ => ?_, fun k => ?_, fun k => ?_, rfl, rfl,
    rfl, rfl⟩ <;> simp [readRow, readDup, readEntry, State.reset]

theorem witness_ExportReconstructsTheImage :
    (⟨8, 8, fun x y => BitVec.ofNat 2 (x + y)⟩ : Image).valid = true ∧
      (⟨256, 256, fun x y => BitVec.ofNat 2 (x + y)⟩ : Image).valid = true := by decide

/-- Of its last clause: an export none of whose map beats has `ovf`. -/
theorem witness_ExportReconstructsTheImage_no_ovf :
    ∃ tileBeats mapBeats t, execAll (⟨8, 8, fun _ _ => 1⟩ : Image).exportCommands State.reset = .next t ∧
      t.out = tileBeats ++ mapBeats ∧ mapBeats.length = 1 ∧ ∀ b ∈ mapBeats, b.ovf = false :=
  ⟨(List.range 16).map fun k => ⟨if k % 2 = 0 then 0xFF#8 else 0x00#8, decide (k = 15), decide (k = 15), false, false⟩,
    [⟨0x00, true, true, true, false⟩],
    { reduced 1 1 [solid1] [0] [0] 1 with
      out := ((List.range 16).map fun k => ⟨if k % 2 = 0 then 0xFF#8 else 0x00#8, decide (k = 15), decide (k = 15), false, false⟩) ++
        [⟨0x00, true, true, true, false⟩] },
    answers_iff.1 (by decide), rfl, rfl, by decide⟩

end Sys2Proof.Tests
end

section
/-! SUPPORT. Where an element holds no value (10_state.md R35), and what the invariant makes of it. -/

namespace Sys2Proof.Machine

variable {s : State} {t : Nat}

theorem readRow_of_nt_le (h : s.nt.toNat ≤ t) (r : Nat) : readRow s t r = none := if_neg (Nat.not_lt.2 h)

theorem readDup_of_nt_le (h : s.nt.toNat ≤ t) : readDup s t = none := if_neg (Nat.not_lt.2 h)

theorem readEntry_of_valueless (h : s.rdone = false ∨ tileCount s ≤ t) : readEntry s t = none :=
  if_neg fun ⟨hr, ht⟩ => h.elim (fun hf => Bool.false_ne_true (hf.symm.trans hr)) (Nat.not_le.2 ht)

theorem Inv.readRow_eq_none_iff (h : Inv s) {r : Nat} (hr : r < 8) : readRow s t r = none ↔ s.nt.toNat ≤ t := by
  refine ⟨fun hn => Nat.not_lt.1 fun ht => ?_, fun ht => readRow_of_nt_le ht r⟩
  have hv := h.rows_valued t ht r hr
  simp [hn] at hv

theorem Inv.readDup_eq_none_iff (h : Inv s) : readDup s t = none ↔ s.nt.toNat ≤ t := by
  refine ⟨fun hn => Nat.not_lt.1 fun ht => ?_, readDup_of_nt_le⟩
  have hv := h.dups_valued t ht
  simp [hn] at hv

theorem Inv.readEntry_eq_none_iff (h : Inv s) : readEntry s t = none ↔ s.rdone = false ∨ tileCount s ≤ t := by
  refine ⟨fun hn => ?_, readEntry_of_valueless⟩
  cases hr : s.rdone with
  | false => exact .inl rfl
  | true =>
    refine .inr (Nat.not_lt.1 fun ht => ?_)
    obtain ⟨e, he, -⟩ := h.entries_valued hr t ht
    simp [hn] at he

/-- R43: before the first pixel of a tile the accumulators are clear, since each of their bits is a bit of a pixel not yet taken. -/
theorem Inv.accRead_eq_zero (h : Inv s) (hp : pixCount s = 0) (r : BitVec 3) : accRead s.acc r = 0#16 := by
  have hclear : ∀ x < 8, (accRead s.acc r).getLsbD (15 - x) = false ∧ (accRead s.acc r).getLsbD (7 - x) = false := by
    intro x hx
    have hpix := h.acc_clear (8 * r.toNat + x) (by omega) (by omega)
    have hrow : (8 * r.toNat + x) / 8 = r.toNat := by omega
    have hcol : (8 * r.toNat + x) % 8 = x := by omega
    simpa only [accPixelClear, hrow, hcol, BitVec.ofNat_toNat, BitVec.setWidth_eq] using hpix
  apply BitVec.eq_of_getLsbD_eq
  intro j hj
  rw [BitVec.getLsbD_zero]
  by_cases hlow : j < 8
  · have hbit := (hclear (7 - j) (by omega)).2
    rwa [show 7 - (7 - j) = j by omega] at hbit
  · have hbit := (hclear (15 - j) (by omega)).1
    rwa [show 15 - (15 - j) = j by omega] at hbit

end Sys2Proof.Machine
end

section
/-! SUPPORT. The reset table (10_state.md R50). -/

namespace Sys2Proof.Machine

@[simp] theorem hardwareReset_reset : hardwareReset State.reset = State.reset := rfl

/-- The memories' contents are kept, and are valueless since NT = 0 and RDONE = 0. -/
theorem atReset_hardwareReset (s : State) : AtReset (hardwareReset s) where
  acc _ _ := accRead_accZero _
  c := rfl
  r := rfl
  tw := rfl
  th := rfl
  nt := rfl
  unique := rfl
  dupcnt := rfl
  phase := rfl
  warn := rfl
  rdone := rfl
  errcode := rfl
  sel := rfl
  rows _ r := readRow_of_nt_le (Nat.zero_le _) r
  dups _ := readDup_of_nt_le (Nat.zero_le _)
  entries _ := readEntry_of_valueless (.inl rfl)
  status := by simp [statusWord, errCode, phaseCode]

/-- Settles O9: every hardware reset leaves the table's values, and the reset state is one that a hardware reset keeps. -/
theorem resetLeavesTheTableValues : Obligations.ResetLeavesTheTableValues := by
  unfold Obligations.ResetLeavesTheTableValues
  refine ⟨?_, fun s rest hp => ⟨_, step_hardReset hp, atReset_hardwareReset _, rfl, rfl⟩⟩
  rw [← hardwareReset_reset]
  exact atReset_hardwareReset State.reset

end Sys2Proof.Machine
end

section
/-! SUPPORT. The register window (10_state.md section 7): what one read records, what each address shows, and the fields of
STATUS. -/

namespace Sys2Proof.Machine

/-! ### One read -/

section
variable {s : State} {a : WinAddr} {rest : List Txn}

theorem step_read_value {d : Word} (hp : s.port = .read a :: rest) (hd : windowShown s a = .value d) :
    step s = .next { s with port := rest, reads := s.reads ++ [⟨a, d⟩] } := by
  have hd' : windowShown { s with port := rest } a = .value d := hd
  rw [step_read hp, windowRead, hd']

theorem step_read_unspec {width : Nat} (hp : s.port = .read a :: rest) (hd : windowShown s a = .unspec width) :
    step s = .next
      { s with port := rest, reads := s.reads ++ [⟨a, unspecField width s.draws⟩], draws := s.draws + 1 } := by
  have hd' : windowShown { s with port := rest } a = .unspec width := hd
  rw [step_read hp, windowRead, hd']

theorem unspecField_toNat {width : Nat} (hw : width ≤ 16) (draw : Nat) :
    (unspecField width draw).toNat = (Config.unspec draw).toNat % 2 ^ width := by
  rw [unspecField, BitVec.toNat_setWidth_of_le hw, BitVec.toNat_setWidth]

/-! ### The table of R36, by address -/

theorem windowShown_status (h : a.toNat = 0x00) : windowShown s a = .value (statusWord s) := by simp [windowShown, h]

theorem windowShown_tw (h : a.toNat = 0x01) : windowShown s a = .value (s.tw.setWidth 16) := by simp [windowShown, h]

theorem windowShown_th (h : a.toNat = 0x02) : windowShown s a = .value (s.th.setWidth 16) := by simp [windowShown, h]

theorem windowShown_nt (h : a.toNat = 0x03) : windowShown s a = .value (s.nt.setWidth 16) := by simp [windowShown, h]

theorem windowShown_pixcnt (h : a.toNat = 0x04) : windowShown s a = .value (BitVec.ofNat 16 (pixCount s)) := by
  simp [windowShown, h]

theorem windowShown_unique (h : a.toNat = 0x05) : windowShown s a = .value (s.unique.setWidth 16) := by simp [windowShown, h]

theorem windowShown_dupcnt (h : a.toNat = 0x06) : windowShown s a = .value (s.dupcnt.setWidth 16) := by simp [windowShown, h]

theorem windowShown_sel (h : a.toNat = 0x07) : windowShown s a = .value (s.sel.setWidth 16) := by simp [windowShown, h]

theorem windowShown_selidx (h : a.toNat = 0x08) : windowShown s a = showElement (readEntry s s.sel.toNat) := by
  simp [windowShown, h]

theorem windowShown_seldup (h : a.toNat = 0x09) : windowShown s a = showElement (readDup s s.sel.toNat) := by
  simp [windowShown, h]

theorem windowShown_reserved (h : 0x0A ≤ a.toNat ∧ a.toNat ≤ 0x0F) : windowShown s a = .value 0x0000#16 := by
  obtain ⟨hlo, hhi⟩ := h
  have hne : ∀ k < 0x0A, a.toNat ≠ k := fun k hk => by omega
  simp [windowShown, hne, Nat.lt_succ_of_le hhi]

theorem windowShown_selrow {r : Nat} (hr : r < 8) (h : a.toNat = 0x10 + r) :
    windowShown s a = showElement (readRow s s.sel.toNat r) := by
  have hne : ∀ k < 0x10, 0x10 + r ≠ k := fun k hk => by omega
  have hlt : 0x10 + r < 0x18 := by omega
  simp [windowShown, h, hne, hlt]

theorem windowShown_acc {r : Nat} (h : a.toNat = 0x18 + r) :
    windowShown s a = .value (accRead s.acc (BitVec.ofNat 3 r)) := by
  have hne : ∀ k < 0x18, 0x18 + r ≠ k := fun k hk => by omega
  have hge : ¬ 0x18 + r < 0x10 := by omega
  simp [windowShown, h, hne, hge]

/-- Every address but those of the read-back of tile SEL shows a value, whatever the state. -/
theorem exists_windowShown_value (h : a.toNat < 0x08 ∨ (0x0A ≤ a.toNat ∧ a.toNat ≤ 0x0F) ∨ 0x18 ≤ a.toNat) :
    ∃ d, windowShown s a = .value d := by
  rcases h with hlow | hres | hacc
  · have ha : a.toNat = 0x00 ∨ a.toNat = 0x01 ∨ a.toNat = 0x02 ∨ a.toNat = 0x03 ∨ a.toNat = 0x04 ∨ a.toNat = 0x05 ∨
        a.toNat = 0x06 ∨ a.toNat = 0x07 := by omega
    rcases ha with h | h | h | h | h | h | h | h
    · exact ⟨_, windowShown_status h⟩
    · exact ⟨_, windowShown_tw h⟩
    · exact ⟨_, windowShown_th h⟩
    · exact ⟨_, windowShown_nt h⟩
    · exact ⟨_, windowShown_pixcnt h⟩
    · exact ⟨_, windowShown_unique h⟩
    · exact ⟨_, windowShown_dupcnt h⟩
    · exact ⟨_, windowShown_sel h⟩
  · exact ⟨_, windowShown_reserved hres⟩
  · exact ⟨_, windowShown_acc (Nat.add_sub_of_le hacc).symm⟩

end

/-! ### The fields of STATUS (R37) -/

section
variable (s : State)

theorem statusWord_phase : (statusWord s).extractLsb' 0 3 = phaseCode s.phase := BitVec.extractLsb'_append_eq_right

theorem statusWord_warn : (statusWord s).getLsbD 3 = s.warn := by
  rw [statusWord, BitVec.getLsbD_append, BitVec.getLsbD_append]
  simp

theorem statusWord_errcode : (statusWord s).extractLsb' 4 2 = errCode s.errcode := by
  rw [statusWord, BitVec.extractLsb'_append_eq_of_le (by decide), BitVec.extractLsb'_append_eq_of_le (by decide)]
  exact BitVec.extractLsb'_append_eq_right

theorem statusWord_rdone : (statusWord s).getLsbD 6 = s.rdone := by
  rw [statusWord, BitVec.getLsbD_append, BitVec.getLsbD_append, BitVec.getLsbD_append, BitVec.getLsbD_append]
  simp

theorem statusWord_high : (statusWord s).extractLsb' 7 9 = 0#9 := by
  rw [statusWord, BitVec.extractLsb'_append_eq_of_le (by decide), BitVec.extractLsb'_append_eq_of_le (by decide),
    BitVec.extractLsb'_append_eq_of_le (by decide)]
  exact BitVec.extractLsb'_append_eq_left

end

/-! ### The statements about the window -/

/-- Settles O50: address 0x00 shows STATUS, whose fields are read off the word one by one. -/
theorem statusFields : Obligations.StatusFields := by
  unfold Obligations.StatusFields
  intro s rest hp
  refine ⟨statusWord s, step_read_value hp (windowShown_status rfl), ?_, statusWord_warn s, ?_, statusWord_rdone s,
    statusWord_high s⟩
  · rw [statusWord_phase]
    cases s.phase <;> rfl
  · rw [statusWord_errcode]
    cases s.errcode <;> rfl

/-- Settles O52: what the address shows is the recorded word, and each clause reads it off the table of R36. -/
theorem windowShowsTheRegisters : Obligations.WindowShowsTheRegisters := by
  unfold Obligations.WindowShowsTheRegisters
  intro s a rest hp hrange
  obtain ⟨data, hd⟩ := exists_windowShown_value (s := s) hrange
  have shown : ∀ {d : Word}, windowShown s a = .value d → data = d := fun he => Shown.value.inj (hd.symm.trans he)
  have shown_zext : ∀ {w : Nat} {x : BitVec w}, w ≤ 16 → windowShown s a = .value (x.setWidth 16) → data.toNat = x.toNat :=
    fun hw he => by rw [shown he, BitVec.toNat_setWidth_of_le hw]
  refine ⟨data, step_read_value hp hd, fun h => shown (windowShown_status h),
    fun h => shown_zext (by decide) (windowShown_tw h), fun h => shown_zext (by decide) (windowShown_th h),
    fun h => shown_zext (by decide) (windowShown_nt h), fun h => ?_, fun h => shown_zext (by decide) (windowShown_unique h),
    fun h => shown_zext (by decide) (windowShown_dupcnt h), fun h => shown_zext (by decide) (windowShown_sel h),
    fun h => shown (windowShown_reserved h), fun r _ h => shown (windowShown_acc h), ?_⟩
  · rw [shown (windowShown_pixcnt h), BitVec.toNat_ofNat, pixCount]
    omega
  · intro hi hzero
    rcases hzero with ⟨h | h, hrdone⟩ | ⟨h, hr, hc⟩
    · exact BitVec.eq_of_toNat_eq ((shown_zext (by decide) (windowShown_unique h)).trans (hi.not_reduced hrdone).1)
    · exact BitVec.eq_of_toNat_eq ((shown_zext (by decide) (windowShown_dupcnt h)).trans (hi.not_reduced hrdone).2.1)
    · have hpix : pixCount s = 0 := by simp [pixCount, hr, hc]
      exact (shown (windowShown_acc (Nat.add_sub_of_le h).symm)).trans (hi.accRead_eq_zero hpix _)

/-- Settles O53: one argument for the three elements, whether the element holds a value or not. -/
theorem windowShowsTheSelectedTile : Obligations.WindowShowsTheSelectedTile := by
  unfold Obligations.WindowShowsTheSelectedTile
  intro s a rest hp shows
  have element : ∀ {w : Nat} (e : Option (BitVec w)), w ≤ 16 → windowShown s a = showElement e →
      shows (e.map BitVec.toNat) w := by
    intro w e hw he
    cases e with
    | some v => exact ⟨v.setWidth 16, BitVec.toNat_setWidth_of_le hw, step_read_value hp he⟩
    | none => exact ⟨unspecField w s.draws, unspecField_toNat hw s.draws, step_read_unspec hp he⟩
  exact ⟨fun h => element _ (by decide) (windowShown_selidx h), fun h => element _ (by decide) (windowShown_seldup h),
    fun r hr h => element _ (by decide) (windowShown_selrow hr h),
    fun hi => ⟨hi.readEntry_eq_none_iff, hi.readDup_eq_none_iff, fun r hr => hi.readRow_eq_none_iff hr⟩⟩

end Sys2Proof.Machine
end

section
/-! SUPPORT. The encoding (30_encoding.md): the rows of the opcode map exclude each other and leave out exactly the illegal words, and
what a PIX word decodes to. -/

namespace Sys2Proof.Machine

/-! ### Legal and illegal words (R97, R98) -/

theorem decode_error_iff {w : Word} : (∃ e, decode w = .error e) ↔ IllegalRange w := by
  have legal {i : Instr} (hd : decode w = .ok i) (hr : ¬ IllegalRange w) : (∃ e, decode w = .error e) ↔ IllegalRange w := by
    simp [hd, hr]
  unfold IllegalRange at legal ⊢
  rcases decode_cases w with ⟨h, hd⟩ | ⟨h, hd⟩ | ⟨h, hd⟩ | ⟨h, hn, hd⟩ | ⟨h, hd⟩ | ⟨h, hd⟩ | ⟨h, hd⟩ | ⟨h, hd⟩ | ⟨h, hn, hd⟩ |
    ⟨h, hd⟩
  · exact legal hd (by omega)
  · exact legal hd (by omega)
  · exact legal hd (by omega)
  · exact iff_of_true hd (by omega)
  · exact legal hd (by omega)
  · exact legal hd (by omega)
  · exact legal hd (by omega)
  · exact legal hd (by omega)
  · exact iff_of_true hd (by omega)
  · exact iff_of_true hd (by omega)

theorem illegalWord_of_phase_ne_fault {s : State} (h : s.phase ≠ .fault) : illegalWord s = raiseFault .illegal s := if_neg h

/-- Settles O7: a word of the listed ranges decodes to nothing, and outside FAULT that is the fault entry and no more. -/
theorem illegalWordRaisesErrIllegal : Obligations.IllegalWordRaisesErrIllegal := by
  unfold Obligations.IllegalWordRaisesErrIllegal
  intro s w rest hp hphase hrange
  obtain ⟨e, he⟩ := decode_error_iff.2 hrange
  rw [step_illegal hp he]
  exact congrArg Host.Outcome.next (illegalWord_of_phase_ne_fault hphase)

/-! ### The opcode map (R96) -/

/-- A row's word carries its pattern where the masks overlap, so two rows selected by one word agree there. -/
theorem pattern_and_mask_of_selects {r q : TableRow} {w : Word} (hr : r.selects w = true) (hq : q.selects w = true) :
    r.pattern &&& q.mask = q.pattern &&& r.mask := by
  simp only [TableRow.selects, beq_iff_eq] at hr hq
  rw [← hr, ← hq, BitVec.and_assoc, BitVec.and_assoc, BitVec.and_comm r.mask]

/-- The rows are disjoint: any two of them differ in a bit that both masks cover. -/
theorem opcodeTable_disjoint {r q : TableRow} {w : Word} (hrt : r ∈ opcodeTable) (hqt : q ∈ opcodeTable)
    (hr : r.selects w = true) (hq : q.selects w = true) : r = q := by
  have differ : ∀ r ∈ opcodeTable, ∀ q ∈ opcodeTable, r.pattern &&& q.mask = q.pattern &&& r.mask → r = q := by decide
  exact differ r hrt q hqt (pattern_and_mask_of_selects hr hq)

theorem exists_selects_iff {w : Word} : (∃ r ∈ opcodeTable, r.selects w = true) ↔ ¬ IllegalRange w := by
  obtain ⟨hnop, hstart, hpix, hreduce, hemitt, hemitm, hsel⟩ := selects_iff w
  simp only [opcodeTable, List.mem_cons, List.not_mem_nil, or_false, exists_eq_or_imp, exists_eq_left, TableRow.selects,
    BitVec.ofNat_eq_ofNat, hnop, hstart, hpix, hreduce, hemitt, hemitm, hsel, decide_eq_true_eq, IllegalRange]
  omega

theorem tableRow_mem (i : Instr) : tableRow i ∈ opcodeTable := by
  cases i <;> simp [tableRow, opcodeTable]

theorem tableRow_selects_of_decode {w : Word} {i : Instr} (h : decode w = .ok i) : (tableRow i).selects w = true := by
  obtain ⟨hnop, hstart, hpix, hreduce, hemitt, hemitm, hsel⟩ := selects_iff w
  have decoded {j : Instr} (hd : decode w = .ok j) (hj : (tableRow j).selects w = true) : (tableRow i).selects w = true := by
    rwa [Except.ok.inj (h.symm.trans hd)]
  have illegal {e : DecodeError} (he : decode w = .error e) : (tableRow i).selects w = true := by simp [he] at h
  rcases decode_cases w with ⟨hw, hd⟩ | ⟨hw, hd⟩ | ⟨hw, hd⟩ | ⟨-, -, e, he⟩ | ⟨hw, hd⟩ | ⟨hw, hd⟩ | ⟨hw, hd⟩ | ⟨hw, hd⟩ |
    ⟨-, -, e, he⟩ | ⟨-, e, he⟩
  · exact decoded hd (hstart.trans (decide_eq_true hw))
  · exact decoded hd (hpix.trans (decide_eq_true hw))
  · exact decoded hd (hsel.trans (decide_eq_true hw))
  · exact illegal he
  · exact decoded hd (hnop.trans (decide_eq_true hw))
  · exact decoded hd (hreduce.trans (decide_eq_true hw))
  · exact decoded hd (hemitt.trans (decide_eq_true hw))
  · exact decoded hd (hemitm.trans (decide_eq_true hw))
  · exact illegal he
  · exact illegal he

/-- Settles O3: a decoded word selects its command's row, the rows are disjoint, and an illegal word selects none. -/
theorem decodeFollowsOpcodeMap : Obligations.DecodeFollowsOpcodeMap := by
  unfold Obligations.DecodeFollowsOpcodeMap
  refine fun w => ⟨fun i hd row hrow => ?_, fun e he row hrow => ?_⟩
  · have own : (tableRow i).selects w = true := tableRow_selects_of_decode hd
    exact ⟨fun hsel => opcodeTable_disjoint hrow (tableRow_mem i) hsel own, fun heq => heq ▸ own⟩
  · refine Bool.eq_false_iff.2 fun hsel => ?_
    exact exists_selects_iff.1 ⟨row, hrow, hsel⟩ (decode_error_iff.1 ⟨e, he⟩)

/-! ### PIX words (R93) -/

theorem pixelField_operandField (w : Word) : pixelField (operandField w) = w.extractLsb' 0 2 := by
  apply BitVec.eq_of_toNat_eq
  rw [pixelField_toNat, operandField_toNat, BitVec.extractLsb'_toNat]
  simp only [Nat.shiftRight_zero]
  omega

theorem decode_of_opcode_pix {w : Word} (h : opcodeField w = 0x2#4) : decode w = .ok (.pix (w.extractLsb' 0 2)) := by
  simp [decode, h, pixelField_operandField]

/-- The bit of plane `k` is `(v >> k) & 1`. -/
theorem pixel_getLsbD (v : Pixel) (k : Nat) : v.getLsbD k = decide (v >>> k &&& 1#2 = 1#2) := by
  rw [BitVec.and_one_eq_setWidth_ofBool_getLsbD, BitVec.getLsbD_ushiftRight, Nat.add_zero]
  cases v.getLsbD k <;> rfl

/-- Settles O5: decode reads a PIX word's opcode and low two bits alone, and the planes are the bits of the pixel. -/
theorem pixUpperBitsAreIgnored : Obligations.PixUpperBitsAreIgnored := by
  unfold Obligations.PixUpperBitsAreIgnored
  refine ⟨fun w h => decode_of_opcode_pix h, fun v => ⟨rfl, ?_, pixel_getLsbD v 1⟩⟩
  have hlow := pixel_getLsbD v 0
  rwa [BitVec.ushiftRight_zero] at hlow

/-! ### The pseudo-instructions (R109) -/

theorem encode_pix_eq_append (v : Pixel) : encode (.pix v) = 0x800#14 ++ v := by
  rw [BitVec.append_def]
  rfl

theorem decode_encode_pix (v : Pixel) : decode (encode (.pix v)) = .ok (.pix v) := by
  have hop : opcodeField (encode (.pix v)) = 0x2#4 := by
    rw [encode_pix_eq_append, opcodeField, BitVec.extractLsb'_append_eq_of_le (by decide)]
    rfl
  have hv : (encode (.pix v)).extractLsb' 0 2 = v := by
    rw [encode_pix_eq_append, BitVec.extractLsb'_append_eq_right]
  rw [decode_of_opcode_pix hop, hv]

theorem decode_pixWord (v : Nat) : decode (pixWord v) = .ok (.pix (BitVec.ofNat 2 v)) := decode_encode_pix _

theorem map_decode_map_pixWord (vs : List Nat) :
    (vs.map pixWord).map decode = vs.map fun v => .ok (.pix (BitVec.ofNat 2 v)) := by
  rw [List.map_map]
  exact List.map_congr_left fun v _ => decode_pixWord v

/-- Settles O8: every word of the first three forms is a PIX word, and those of EXPORT are three fixed words. -/
theorem pseudoInstructionsExpand : Obligations.PseudoInstructionsExpand := by
  unfold Obligations.PseudoInstructionsExpand
  refine ⟨fun vs _ => map_decode_map_pixWord vs, fun vs _ => map_decode_map_pixWord vs, fun v n _ => ?_, by decide⟩
  rw [expand, List.map_replicate, decode_pixWord]

end Sys2Proof.Machine
end

section
/-! SUPPORT. Session control (40_session_control.md): NOP; what START leaves on either side of its check of the dimensions; SEL. -/

namespace Sys2Proof.Machine

variable {s : State}

/-! ### START (R123, R124) -/

section
variable {th tw : Dim}

theorem exec_start_of_legal (h : 1 ≤ tw.toNat ∧ tw.toNat ≤ 32 ∧ 1 ≤ th.toNat ∧ th.toNat ≤ 32) :
    exec (.start th tw) s = .next (latchGrid th tw (clearExport s)) := by
  rw [exec_start, if_pos (dimsOk_iff.2 h)]

theorem exec_start_of_not_legal (h : ¬ (1 ≤ tw.toNat ∧ tw.toNat ≤ 32 ∧ 1 ≤ th.toNat ∧ th.toNat ≤ 32)) :
    exec (.start th tw) s = .next (refuseGrid (clearExport s)) := by
  rw [exec_start, if_neg (mt dimsOk_iff.1 h)]

end

/-- R35: with no tile committed and no REDUCE done, no element of the three memories holds a value. -/
theorem valueless_of_fresh (hn : s.nt = 0) (hr : s.rdone = false) :
    (∀ k r, readRow s k r = none) ∧ (∀ k, readDup s k = none) ∧ ∀ k, readEntry s k = none := by
  have hle : ∀ k, s.nt.toNat ≤ k := fun k => by simp [hn]
  exact ⟨fun k r => readRow_of_nt_le (hle k) r, fun k => readDup_of_nt_le (hle k), fun _ => readEntry_of_valueless (.inl hr)⟩

/-- But for its fault entry, a refused START does to the block what a hardware reset does. -/
theorem refuseGrid_clearExport_eq_hardwareReset (s : State) :
    { refuseGrid (clearExport s) with phase := .idle, errcode := .none } = hardwareReset s := rfl

/-- Settles O19: the clearing step comes first either way, so the two outcomes differ in the dimensions, PHASE and ERRCODE alone. -/
theorem startOpensAFreshExport : Obligations.StartOpensAFreshExport := by
  unfold Obligations.StartOpensAFreshExport
  intro s th tw legal
  by_cases h : legal
  · refine ⟨_, exec_start_of_legal h, ?_, valueless_of_fresh rfl rfl⟩
    simp only [if_pos h]
    rfl
  · refine ⟨_, exec_start_of_not_legal h, ?_, valueless_of_fresh rfl rfl⟩
    simp only [if_neg h]
    rfl

/-- Settles O20: the two ranges of the statement are the two sides of START's check. -/
theorem startOutOfRangeLeavesResetState : Obligations.StartOutOfRangeLeavesResetState := by
  unfold Obligations.StartOutOfRangeLeavesResetState
  intro s th tw
  refine ⟨fun hout => ?_, fun hlegal => ⟨_, exec_start_of_legal hlegal, rfl, rfl⟩⟩
  refine ⟨_, exec_start_of_not_legal (by omega), rfl, rfl, rfl, ?_⟩
  rw [refuseGrid_clearExport_eq_hardwareReset]
  exact atReset_hardwareReset s

/-! ### NOP and SEL (R120, R127) -/

/-- Settles O18: the phase table lets NOP through or drops it, and either way it is no change. -/
theorem nopChangesNothing : Obligations.NopChangesNothing := by
  unfold Obligations.NopChangesNothing
  exact exec_nop

theorem exec_sel_of_fault {x : TileIdx} (h : s.phase = .fault) : exec (.sel x) s = .next s :=
  exec_of_drop (by rw [h]; rfl)

/-- SELROWr by its address: the five bits of the address hold 0x10 + r. -/
theorem windowShown_selrow_of_sel {x : TileIdx} {r : Nat} (hr : r < 8) :
    windowShown { s with sel := x } (BitVec.ofNat 5 (0x10 + r)) = showElement (readRow s x.toNat r) := by
  have haddr : (BitVec.ofNat 5 (0x10 + r)).toNat = 0x10 + r := by
    rw [BitVec.toNat_ofNat]
    omega
  exact windowShown_selrow hr haddr

/-- Settles O21: after `SEL x` the window's read-back addresses read tile `x`, whose elements SEL leaves as they were. -/
theorem selSetsSelAndNothingElse : Obligations.SelSetsSelAndNothingElse := by
  unfold Obligations.SelSetsSelAndNothingElse
  exact fun s x => ⟨exec_sel_of_fault, fun hphase =>
    ⟨{ s with sel := x }, exec_sel hphase, rfl, windowShown_selidx rfl, windowShown_seldup rfl,
      fun _ => windowShown_selrow_of_sel⟩⟩

end Sys2Proof.Machine
end

section
/-! SUPPORT. The TileEncoder (41_tile_encoder.md): what one PIX changes and what it leaves unchanged. -/

namespace Sys2Proof.Machine

variable {s t : State} {v : Pixel}

/-! ### PIX out of LOAD (R145, R146) -/

/-- Settles O28: the phase table raises the code, and a raised fault is the fault entry and no more. -/
theorem pixOutOfPhaseFaults : Obligations.PixOutOfPhaseFaults := by
  unfold Obligations.PixOutOfPhaseFaults
  refine fun s v => ⟨?_, fun hready => ?_⟩
  · rintro (hidle | hreduced)
    · exact exec_of_raise (by rw [hidle]; rfl)
    · exact exec_of_raise (by rw [hreduced]; rfl)
  · exact exec_of_raise (by rw [hready]; rfl)

/-! ### What a commit leaves unchanged (R143, R144) -/

theorem memRead_tgrow_commitTile {a : Nat} (h : ∀ r < 8, a ≠ rowAddr s.nt.toNat r) :
    memRead (commitTile s).tgrow a = memRead s.tgrow a := by
  rw [commitTile_tgrow]
  refine memRead_memWriteRun_outside (Decidable.by_contra fun hin => ?_)
  rw [Vector.length_toList, rowAddr] at hin
  refine h (a - 8 * s.nt.toNat) (by omega) ?_
  rw [rowAddr]
  omega

theorem memRead_tgdup_commitTile {a : Nat} (h : a ≠ s.nt.toNat) : memRead (commitTile s).tgdup a = memRead s.tgdup a :=
  memRead_memWrite_other _ _ h

theorem commitTile_nt_ne (h : s.nt.toNat < 1024) : (commitTile s).nt ≠ s.nt := by
  intro he
  have hs := nt_succ h
  rw [← commitTile_nt, he] at hs
  omega

theorem accRead_addPixel_of_ne {q : BitVec 3} (h : q ≠ s.r) : accRead (addPixel v s).acc q = accRead s.acc q := by
  rw [addPixel_acc, accRead_accWrite, if_neg h]

/-- A PIX that commits no tile touches no memory and no accumulator but `ACC[R]`. -/
theorem exec_pix_commit_or_keeps (h : exec (.pix v) s = .next t) :
    (s.nt.toNat < 1024 ∧ t = commitTile { addPixel v s with c := 1, r := 0 }) ∨
      (t.nt = s.nt ∧ t.tgrow = s.tgrow ∧ t.tgdup = s.tgdup ∧ ∀ q, q ≠ s.r → accRead t.acc q = accRead s.acc q) := by
  cases exec_effect h with
  | dropped | raised => exact .inr ⟨rfl, rfl, rfl, fun _ _ => rfl⟩
  | column | row => exact .inr ⟨rfl, rfl, rfl, fun _ hq => accRead_addPixel_of_ne hq⟩
  | commit _ _ _ _ hn => exact .inl ⟨hn, rfl⟩

/-- The registers and the host's side that no PIX writes. -/
theorem exec_pix_registers (h : exec (.pix v) s = .next t) :
    t.warn = s.warn ∧ t.rdone = s.rdone ∧ t.unique = s.unique ∧ t.dupcnt = s.dupcnt ∧ t.sel = s.sel ∧ t.tw = s.tw ∧
      t.th = s.th ∧ t.imap = s.imap ∧ t.out = s.out ∧ t.port = s.port ∧ t.reads = s.reads ∧ t.draws = s.draws ∧
      (t.errcode = s.errcode ∨ t.phase = .fault) := by
  cases exec_effect h with
  | raised => exact ⟨rfl, rfl, rfl, rfl, rfl, rfl, rfl, rfl, rfl, rfl, rfl, rfl, .inr rfl⟩
  | dropped | column | row | commit => exact ⟨rfl, rfl, rfl, rfl, rfl, rfl, rfl, rfl, rfl, rfl, rfl, rfl, .inl rfl⟩

/-- Settles O29: a PIX commits tile NT or leaves the memories alone, and which of the two NT tells. -/
theorem pixFrame : Obligations.PixFrame := by
  unfold Obligations.PixFrame
  intro s t v h
  obtain ⟨hwarn, hrdone, hunique, hdupcnt, hsel, htw, hth, himap, hout, hport, hreads, hdraws, herr⟩ := exec_pix_registers h
  refine ⟨hwarn, hrdone, hunique, hdupcnt, hsel, htw, hth, himap, hout, hport, hreads, hdraws, herr, ?_⟩
  rcases exec_pix_commit_or_keeps h with ⟨hn, rfl⟩ | ⟨hnt, hrow, hdup, hacc⟩
  · exact ⟨fun a ha => memRead_tgrow_commitTile ha, fun a ha => memRead_tgdup_commitTile ha,
      .inr (memRead_memWrite_same _ _ _), fun hnt => absurd hnt (commitTile_nt_ne hn), fun _ => rfl⟩
  · rw [hrow, hdup]
    exact ⟨fun _ _ => rfl, fun _ _ => rfl, .inl rfl, fun _ => ⟨fun _ => rfl, fun _ => rfl, hacc⟩, fun hne => absurd hnt hne⟩

/-- Settles O30: START and a commit alone touch NT or TGROW, and a commit writes the rows of tile NT only. -/
theorem committedRowsNeverChange : Obligations.CommittedRowsNeverChange := by
  unfold Obligations.CommittedRowsNeverChange
  intro i s t hi h k hk r hr
  cases exec_effect h with
  | opened th tw | refused th tw => exact absurd rfl (hi th tw)
  | commit v _ _ _ hn =>
    have hne : k ≠ s.nt.toNat := Nat.ne_of_lt hk
    exact (readRow_commitTile (s := { addPixel v s with c := 1, r := 0 }) hn hr).trans (if_neg hne)
  | nop | dropped | raised | selected | column | row | reduced | emittedTiles | emittedMap => rfl

/-! ### One PIX in LOAD (R141 to R143) -/

/-- Settles O24: the accumulators after the pixel are those of `addPixel`, and the counters select one of three answers. -/
theorem pixAccumulatesAdvancesAndCommits : Obligations.PixAccumulatesAdvancesAndCommits := by
  unfold Obligations.PixAccumulatesAdvancesAndCommits
  intro s v hp h1 h8 hn
  have hacc : (∀ q : BitVec 3, q ≠ s.r → accRead (addPixel v s).acc q = accRead s.acc q) ∧
      ∀ j < 16, (accRead (addPixel v s).acc s.r).getLsbD j =
        ((accRead s.acc s.r).getLsbD j || (decide (j = 16 - s.c.toNat) && v.getLsbD 0) ||
          (decide (j = 8 - s.c.toNat) && v.getLsbD 1)) := by
    refine ⟨fun q hq => accRead_addPixel_of_ne hq, fun j _ => ?_⟩
    rw [addPixel_acc, accRead_accWrite, if_pos rfl, getLsbD_orPixel h1 h8]
  by_cases hc : s.c.toNat < 8
  · exact ⟨_, _, exec_pix_column hp hc, hacc.1, hacc.2, fun _ => rfl, fun he => absurd hc (by omega),
      fun he => absurd hc (by omega)⟩
  by_cases hr : s.r.toNat < 7
  · exact ⟨_, _, exec_pix_row hp hc hr, hacc.1, hacc.2, fun hlt => absurd hlt hc, fun _ _ => rfl,
      fun _ he => absurd hr (by omega)⟩
  · refine ⟨_, _, exec_pix_commit hp hc hr hn, hacc.1, hacc.2, fun hlt => absurd hlt hc, fun _ hlt => absurd hlt hr,
      fun _ _ => ⟨fun r hr => readRow_commitTile_own rfl hn hr, readDup_commitTile_own rfl hn,
        fun a ha => memRead_tgrow_commitTile ha, fun a ha => memRead_tgdup_commitTile ha, ?_⟩⟩
    rw [← hp]
    rfl

end Sys2Proof.Machine
end

section
/-! SUPPORT. The encoding of a tile (41_tile_encoder.md R140, R148 to R150): the rows that hold 64 pixels, as sums of their bits and as
the bytes the decoder reads. -/

namespace Sys2Proof.Machine

/-! ### A word by its two planes -/

theorem toNat_setWidth_eq_sum {n : Nat} (w : BitVec n) (k : Nat) :
    (w.setWidth k).toNat = ((List.range k).map fun j => (w.getLsbD j).toNat <<< j).sum := by
  induction k with
  | zero => simp [BitVec.eq_nil (w.setWidth 0)]
  | succ k ih =>
    rw [BitVec.setWidth_succ, BitVec.toNat_cons', ih, List.range_succ, List.map_append, List.sum_append, Nat.add_comm,
      List.map_singleton, List.sum_singleton]

/-- R148: the high byte of a row from its left end, then the low byte from its left end. -/
theorem toNat_eq_sum_planes (w : Word) :
    w.toNat = ((List.range 8).map fun x => (w.getLsbD (15 - x)).toNat <<< (15 - x)).sum +
      ((List.range 8).map fun x => (w.getLsbD (7 - x)).toNat <<< (7 - x)).sum := by
  have hsum := toNat_setWidth_eq_sum w 16
  rw [BitVec.setWidth_eq] at hsum
  simp only [List.range_succ, List.range_zero, List.map_append, List.map_cons, List.map_nil, List.sum_append, List.sum_cons,
    List.sum_nil, List.nil_append, Nat.reduceSub] at hsum ⊢
  omega

theorem word_ext {a b : Word}
    (h : ∀ x < 8, a.getLsbD (15 - x) = b.getLsbD (15 - x) ∧ a.getLsbD (7 - x) = b.getLsbD (7 - x)) : a = b := by
  apply BitVec.eq_of_getLsbD_eq
  intro j hj
  by_cases hlow : j < 8
  · have hbit := (h (7 - j) (by omega)).2
    rwa [show 7 - (7 - j) = j by omega] at hbit
  · have hbit := (h (15 - j) (by omega)).1
    rwa [show 15 - (15 - j) = j by omega] at hbit

/-! ### Accumulators that hold the 64 pixels of a tile -/

section
variable {acc acc' : Vector Word 8} {p q : List Pixel}

/-- R140: the pixels fix every bit of the accumulators. -/
theorem AccHolds.acc_unique (h : AccHolds acc p 64) (h' : AccHolds acc' p 64) : acc = acc' := by
  refine acc_ext fun r hr => word_ext fun x hx => ?_
  obtain ⟨hlow, hhigh⟩ := h.row hr hx
  obtain ⟨hlow', hhigh'⟩ := h'.row hr hx
  exact ⟨hlow.trans hlow'.symm, hhigh.trans hhigh'.symm⟩

/-- R148: a row is the sum of the low bits and the high bits of its pixels, each at its place. -/
theorem AccHolds.row_toNat (h : AccHolds acc p 64) {r : Nat} (hr : r < 8) :
    (accRead acc (BitVec.ofNat 3 r)).toNat =
      ((List.range 8).map fun x => ((p.getD (8 * r + x) 0#2).getLsbD 0).toNat <<< (15 - x)).sum +
        ((List.range 8).map fun x => ((p.getD (8 * r + x) 0#2).getLsbD 1).toNat <<< (7 - x)).sum := by
  rw [toNat_eq_sum_planes]
  refine congrArg₂ (· + ·) (congrArg List.sum (List.map_congr_left fun x hx => ?_))
    (congrArg List.sum (List.map_congr_left fun x hx => ?_))
  · rw [(h.row hr (List.mem_range.1 hx)).1]
  · rw [(h.row hr (List.mem_range.1 hx)).2]

theorem AccHolds.decodePixel_tileBytes (h : AccHolds acc p 64) {r x : Nat} (hr : r < 8) (hx : x < 8) :
    decodePixel (tileBytes acc.toList) r x = p.getD (8 * r + x) 0#2 := by
  obtain ⟨hlow, hhigh⟩ := h.row hr hx
  obtain ⟨hdlow, hdhigh⟩ := decodePixel_bits (b := tileBytes acc.toList) (r := r) (x := x)
  rw [List.getD_eq_getElem?_getD, tileBytes_even, accToList_getElem? acc hr, Option.map_some, Option.getD_some,
    getLsbD_rowHighByte (by omega), show 8 + (7 - x) = 15 - x by omega] at hdlow
  rw [List.getD_eq_getElem?_getD, tileBytes_odd, accToList_getElem? acc hr, Option.map_some, Option.getD_some,
    getLsbD_rowLowByte (by omega)] at hdhigh
  exact pixel_ext (hdlow.trans hlow) (hdhigh.trans hhigh)

theorem pixels_ext (hp : p.length = 64) (hq : q.length = 64)
    (h : ∀ r < 8, ∀ x < 8, p.getD (8 * r + x) 0#2 = q.getD (8 * r + x) 0#2) : p = q := by
  refine List.ext_getElem (hp.trans hq.symm) fun i hi hi' => ?_
  have hpix := h (i / 8) (by omega) (i % 8) (by omega)
  rw [show 8 * (i / 8) + i % 8 = i by omega] at hpix
  simpa [List.getD_eq_getElem?_getD, hi, hi'] using hpix

/-- R149: the accumulators fix the pixels, since the decoder gives them back. -/
theorem AccHolds.pixels_unique (h : AccHolds acc p 64) (h' : AccHolds acc q 64) (hp : p.length = 64) (hq : q.length = 64) :
    p = q := by
  refine pixels_ext hp hq fun r hr x hx => ?_
  rw [← h.decodePixel_tileBytes hr hx, h'.decodePixel_tileBytes hr hx]

end

/-! ### The committed tile -/

/-- The rows of tile `k` are the encoding of the pixels `p`. -/
def TileHolds (s : State) (k : Nat) (p : List Pixel) : Prop := ∃ acc, AccHolds acc p 64 ∧ readTile s k = some acc.toList

section
variable {s t : State} {j k : Nat} {p q : List Pixel}

theorem TileHolds.congr (h : TileHolds s k p) (hrow : ∀ r < 8, readRow t k r = readRow s k r) : TileHolds t k p := by
  obtain ⟨acc, hacc, hread⟩ := h
  exact ⟨acc, hacc, (readTile_congr hrow).trans hread⟩

theorem TileHolds.readTile_eq_iff (h : TileHolds s j p) (h' : TileHolds t k q) (hp : p.length = 64) (hq : q.length = 64) :
    readTile s j = readTile t k ↔ p = q := by
  obtain ⟨acc, hacc, hread⟩ := h
  obtain ⟨acc', hacc', hread'⟩ := h'
  rw [hread, hread', Option.some.injEq, Vector.toList_inj]
  constructor
  · rintro rfl
    exact hacc.pixels_unique hacc' hp hq
  · rintro rfl
    exact hacc.acc_unique hacc'

theorem TileHolds.decodePixel {rows : TileRows} (h : TileHolds s k p) (hread : readTile s k = some rows) {r x : Nat}
    (hr : r < 8) (hx : x < 8) : decodePixel (tileBytes rows) r x = p.getD (8 * r + x) 0#2 := by
  obtain ⟨acc, hacc, hread'⟩ := h
  obtain rfl : acc.toList = rows := Option.some.inj (hread'.symm.trans hread)
  exact hacc.decodePixel_tileBytes hr hx

theorem readTile_commitTile_own (hn : s.nt.toNat < 1024) : readTile (commitTile s) s.nt.toNat = some s.acc.toList := by
  refine gather_range_eq_some (Vector.length_toList) fun r hr => ?_
  rw [readRow_commitTile hn hr, if_pos rfl]

variable (hp : s.phase = .load) (hc : s.c = 1) (hr : s.r = 0) (ha : s.acc = Vector.replicate 8 0x0000#16)
  (hn : s.nt.toNat < 1024)
include hp hc hr ha hn

/-- The 64 pixels of a tile end in a commit of the tile that holds them. -/
theorem execAll_tile_holds (hl : p.length = 64) :
    ∃ acc, execAll (p.map Instr.pix) s = .next (commitTile { s with acc := acc, c := 1, r := 0 }) ∧
      TileHolds (commitTile { s with acc := acc, c := 1, r := 0 }) s.nt.toNat p := by
  obtain ⟨acc, hacc, he⟩ := execAll_tile hp hc hr ha hl hn
  exact ⟨acc, he, acc, hacc, readTile_commitTile_own (s := { s with acc := acc, c := 1, r := 0 }) hn⟩

theorem execAll_tile_rows (hl : p.length = 64) :
    ∃ t acc, execAll (p.map Instr.pix) s = .next t ∧ AccHolds acc p 64 ∧ readDup t s.nt.toNat = some 0#1 ∧
      ∀ r < 8, readRow t s.nt.toNat r = some (accRead acc (BitVec.ofNat 3 r)) := by
  obtain ⟨acc, hacc, he⟩ := execAll_tile hp hc hr ha hl hn
  exact ⟨_, acc, he, hacc, readDup_commitTile_own rfl hn, fun r hr => readRow_commitTile_own rfl hn hr⟩

theorem tileHolds_of_execAll (hl : p.length = 64) (he : execAll (p.map Instr.pix) s = .next t) : TileHolds t s.nt.toNat p := by
  obtain ⟨acc, he', hholds⟩ := execAll_tile_holds hp hc hr ha hn hl
  rw [he] at he'
  cases he'
  exact hholds

end

/-- Settles O25: the rows are the accumulators, whose planes hold the pixels' bits, and a word is the sum of its planes. -/
theorem sixtyFourPixelsEncodeATile : Obligations.SixtyFourPixelsEncodeATile := by
  unfold Obligations.SixtyFourPixelsEncodeATile
  intro s p hp hc hr ha hn hl
  obtain ⟨t, acc, he, hacc, hdup, hrow⟩ := execAll_tile_rows hp hc hr ha hn hl
  exact ⟨t, he, hdup, fun r hr => ⟨_, hrow r hr, hacc.row_toNat hr, fun x hx => hacc.row hr hx⟩⟩

/-- Settles O26: the decoder reads the pixels back from the committed rows, so the rows determine the pixels. -/
theorem encodedTileRoundTrips : Obligations.EncodedTileRoundTrips := by
  unfold Obligations.EncodedTileRoundTrips
  refine fun s hp hc hr ha hn => ⟨fun p hl => ?_, fun p q t u hl hl' ht hu hread => ?_⟩
  · obtain ⟨acc, he, hholds⟩ := execAll_tile_holds hp hc hr ha hn hl
    have hread := readTile_commitTile_own (s := { s with acc := acc, c := 1, r := 0 }) hn
    refine ⟨_, acc.toList, he, hread, ?_, fun r hr x hx => hholds.decodePixel hread hr hx⟩
    rw [tileBytes_length, Vector.length_toList]
  · have hholds := tileHolds_of_execAll hp hc hr ha hn hl ht
    have hholds' := tileHolds_of_execAll hp hc hr ha hn hl' hu
    exact (hholds.readTile_eq_iff hholds' hl hl').1 hread

/-- Settles O27: each state commits the accumulators that hold the pixels, and the pixels fix those. -/
theorem tileDependsOnItsPixelsAlone : Obligations.TileDependsOnItsPixelsAlone := by
  unfold Obligations.TileDependsOnItsPixelsAlone
  intro s u p hl hsp hup hsc huc hsr hur hsa hua hsn hun
  obtain ⟨s', acc, hes, hacc, -, hrow⟩ := execAll_tile_rows hsp hsc hsr hsa hsn hl
  obtain ⟨u', acc', heu, hacc', -, hrow'⟩ := execAll_tile_rows hup huc hur hua hun hl
  obtain rfl := hacc.acc_unique hacc'
  refine ⟨s', u', hes, heu, fun r hr => ?_⟩
  rw [hrow r hr, hrow' r hr]
  exact ⟨rfl, rfl⟩

end Sys2Proof.Machine
end

section
/-! SUPPORT. REDUCE, EMITT and EMITM over a grid whose rows and flags are known tile by tile: the count of distinct tiles, and the
beats that belong to a tile. The invariant is not asked for, since START may come in any state. -/

namespace Sys2Proof.Machine

variable {s : State}

/-- The canonical tiles are one for each of the values that tell the tiles apart. -/
theorem uniqueOf_eq_card_image {α : Type} [DecidableEq α] {tiles : List TileRows} {g : Nat → α} {n : Nat}
    (h : ∀ i < n, ∀ j < n, tileAt tiles i = tileAt tiles j ↔ g i = g j) :
    uniqueOf tiles n = ((Finset.range n).image g).card := by
  induction n with
  | zero => rfl
  | succ n ih =>
    have ih := ih fun i hi j hj => h i (by omega) j (by omega)
    rw [uniqueOf_succ, ih, Finset.range_add_one, Finset.image_insert]
    have hle := firstOf_le tiles n
    by_cases hc : firstOf tiles n = n
    · have hnew : g n ∉ (Finset.range n).image g := by
        rw [Finset.mem_image]
        rintro ⟨i, hi, he⟩
        have hi : i < n := Finset.mem_range.1 hi
        have hfirst := firstOf_le_of_eq tiles ((h i (by omega) n (by omega)).2 he)
        omega
      rw [Finset.card_insert_of_notMem hnew, isCanonical, decide_eq_true hc, if_pos rfl]
    · have hold : g n ∈ (Finset.range n).image g :=
        Finset.mem_image.2 ⟨firstOf tiles n, Finset.mem_range.2 (by omega),
          (h _ (by omega) n (by omega)).1 (tileAt_firstOf tiles n)⟩
      rw [Finset.insert_eq_of_mem hold, isCanonical, decide_eq_false hc, if_neg Bool.false_ne_true, Nat.add_zero]

theorem readTile_eq_tileAt {tiles : List TileRows} {n k : Nat} (ht : readTiles s n = some tiles) (hk : k < n) :
    readTile s k = some (tileAt tiles k) := by
  have hl : k < tiles.length := by rwa [readTiles_length ht]
  rw [readTiles_tile ht hk, tileAt, List.getD_eq_getElem?_getD, List.getElem?_eq_getElem hl, Option.getD_some]

/-- UNIQUE counts whatever tells the stored tiles apart. -/
theorem Reduced.unique_eq_card {α : Type} [DecidableEq α] {g : Nat → α} (h : Reduced s)
    (hg : ∀ i < tileCount s, ∀ j < tileCount s, readTile s i = readTile s j ↔ g i = g j) :
    s.unique.toNat = ((Finset.range (tileCount s)).image g).card := by
  obtain ⟨tiles, ht, -, -, hu, -⟩ := h
  rw [hu]
  refine uniqueOf_eq_card_image fun i hi j hj => ?_
  rw [← hg i hi j hj, readTile_eq_tileAt ht hi, readTile_eq_tileAt ht hj, Option.some.injEq]

/-! ### The two streams -/

/-- EMITT sends 16 beats for each canonical tile, and the entry of a tile names the 16 that carry its bytes. -/
theorem Reduced.emitt (h : Reduced s) (hp : s.phase = .reduced) (hN : tileCount s ≤ 1024) :
    ∃ beats, exec .emitt s = .next (emitBeats beats s) ∧ beats.length = 16 * s.unique.toNat ∧
      ∀ k < tileCount s, ∃ e rows, readEntry s k = some e ∧ readTile s k = some rows ∧
        ((beats.drop (16 * e.toNat)).take 16).map Beat.d = tileBytes rows := by
  obtain ⟨tiles, ht, hflag, hentry, hu, -⟩ := h
  obtain ⟨dups, hd⟩ : ∃ dups, readDups s (tileCount s) = some dups :=
    gather_of_isSome fun k hk => by rw [hflag k (List.mem_range.1 hk)]; rfl
  obtain ⟨hlen, hchunk⟩ :=
    emitTiles_kept (unique := s.unique.toNat) (readDups_length hd) (readTiles_length ht) (readTiles_rows ht)
  have hkept : ((List.range (tileCount s)).filter fun t => !dups.getD t false) =
      (List.range (tileCount s)).filter (isCanonical tiles) := by
    rw [filter_readDups hd]
    refine List.filter_congr fun k hk => ?_
    rw [hflag k (List.mem_range.1 hk), not_lt_iff_isCanonical]
    cases isCanonical tiles k <;> decide
  rw [hkept] at hlen hchunk
  refine ⟨_, exec_emitt hp ht hd, ?_, fun k hk => ⟨_, _, hentry k hk, readTile_eq_tileAt ht hk, ?_⟩⟩
  · rw [hlen, hu, uniqueOf, List.countP_eq_length_filter]
  · have hslot := slotOf_lt tiles hk
    have hsum := uniqueOf_add_duplicatesOf tiles (tileCount s)
    have hfirst : firstOf tiles k < tileCount s := Nat.lt_of_le_of_lt (firstOf_le tiles k) hk
    have hnth : ((List.range (tileCount s)).filter (isCanonical tiles))[slotOf tiles k]? = some (firstOf tiles k) :=
      nth_canonical tiles _ _ hfirst (isCanonical_firstOf tiles k)
    rw [BitVec.toNat_ofNat, Nat.mod_eq_of_lt (by omega), hchunk _ _ hnth, tileBeats_bytes, tileAt_firstOf]

/-- EMITM sends one beat for each tile, with the tile's entry. -/
theorem Reduced.emitm (h : Reduced s) (hp : s.phase = .reduced) :
    ∃ beats, exec .emitm s = .next (emitBeats beats s) ∧ beats.length = tileCount s ∧
      ∀ k < tileCount s, ∃ e, readEntry s k = some e ∧ beats[k]? = some (mapBeat s.tw.toNat (tileCount s) k e) := by
  obtain ⟨tiles, -, -, hentry, -⟩ := h
  obtain ⟨es, he⟩ : ∃ es, readEntries s (tileCount s) = some es :=
    gather_of_isSome fun k hk => by rw [hentry k (List.mem_range.1 hk)]; rfl
  refine ⟨_, exec_emitm hp he, by rw [emitEntries_length, readEntries_length he], fun k hk => ⟨_, hentry k hk, ?_⟩⟩
  rw [emitEntries_getElem?, ← readEntries_entry he hk, hentry k hk, Option.map_some, Nat.zero_add]

/-- EMITT and then EMITM: the beat of a tile carries its entry, which names the 16 beats that carry its bytes. -/
theorem Reduced.emit_both (h : Reduced s) (hp : s.phase = .reduced) (hN : tileCount s ≤ 1024) :
    ∃ tileBeats mapBeats, execAll [.emitt, .emitm] s = .next (emitBeats mapBeats (emitBeats tileBeats s)) ∧
      tileBeats.length = 16 * s.unique.toNat ∧ mapBeats.length = tileCount s ∧
      ∀ k < tileCount s, ∃ e rows, readEntry s k = some e ∧ readTile s k = some rows ∧
        mapBeats[k]? = some (mapBeat s.tw.toNat (tileCount s) k e) ∧
        ((tileBeats.drop (16 * e.toNat)).take 16).map Beat.d = tileBytes rows := by
  obtain ⟨tileBeats, hemitt, htlen, hchunk⟩ := h.emitt hp hN
  have h' : Reduced (emitBeats tileBeats s) := h.congr rfl rfl (fun _ _ => rfl) (fun _ => rfl) (fun _ => rfl) rfl rfl
  obtain ⟨mapBeats, hemitm, hmlen, hmap⟩ := h'.emitm hp
  refine ⟨tileBeats, mapBeats, ?_, htlen, hmlen, fun k hk => ?_⟩
  · rw [execAll, hemitt]
    exact (execAll_single _ _).trans hemitm
  · obtain ⟨e, rows, he, hread, hbytes⟩ := hchunk k hk
    obtain ⟨e', he', hbeat⟩ := hmap k hk
    obtain rfl : e = e' := Option.some.inj (he.symm.trans he')
    exact ⟨e, rows, he, hread, hbeat, hbytes⟩

/-- The decoder reads no byte past the 16 of its tile, so it may start in the middle of a stream. -/
theorem decodePixel_of_chunk {beats : List Beat} {rows : TileRows} {n r x : Nat}
    (h : ((beats.drop n).take 16).map Beat.d = tileBytes rows) (hr : r < 8) :
    decodePixel ((beats.map Beat.d).drop n) r x = decodePixel (tileBytes rows) r x := by
  have hget : ∀ i < 16, (tileBytes rows).getD i 0#8 = ((beats.map Beat.d).drop n).getD i 0#8 := fun i hi => by
    rw [← h, List.map_take, List.map_drop, List.getD_eq_getElem?_getD, List.getElem?_take_of_lt hi,
      List.getD_eq_getElem?_getD]
  rw [decodePixel, decodePixel, hget _ (by omega), hget _ (by omega)]

end Sys2Proof.Machine
end

section
/-! SUPPORT. The commands of R273 to R275 (70_reset_and_hazards.md): START, the tiles of a grid one after the other, REDUCE, EMITT and
EMITM. -/

namespace Sys2Proof.Machine

/-! ### Loading the tiles -/

/-- A grid of `N` tiles of which the first `n` are loaded, tile `k` with the pixels `f k`, and no pixel of the next. -/
structure TilesLoaded (N : Nat) (f : Nat → List Pixel) (n : Nat) (s : State) : Prop where
  count : tileCount s = N
  phase : s.phase = if n = N then .ready else .load
  acc : s.acc = accZero
  c : s.c = 1
  r : s.r = 0
  nt : s.nt.toNat = n
  tiles : ∀ k < n, TileHolds s k (f k)
  flags : ∀ k < n, readDup s k = some 0#1

section
variable {N : Nat} {f : Nat → List Pixel} {n : Nat} {s : State}

theorem tilesLoaded_start {th tw : Dim} (h : 1 ≤ tw.toNat ∧ tw.toNat ≤ 32 ∧ 1 ≤ th.toNat ∧ th.toNat ≤ 32) :
    TilesLoaded (tw.toNat * th.toNat) f 0 (latchGrid th tw (clearExport s)) where
  count := rfl
  phase := (if_neg (Nat.mul_pos h.1 h.2.2.1).ne).symm
  acc := rfl
  c := rfl
  r := rfl
  nt := rfl
  tiles := fun _ hk => absurd hk (Nat.not_lt_zero _)
  flags := fun _ hk => absurd hk (Nat.not_lt_zero _)

theorem TilesLoaded.after_commit {acc : Vector Word 8} (h : TilesLoaded N f n s) (hn : n < N) (hN : N ≤ 1024)
    (hholds : TileHolds (commitTile { s with acc := acc, c := 1, r := 0 }) s.nt.toNat (f s.nt.toNat)) :
    TilesLoaded N f (n + 1) (commitTile { s with acc := acc, c := 1, r := 0 }) := by
  obtain ⟨hcount, hphase, -, -, -, rfl, htiles, hflags⟩ := h
  have hnt : s.nt.toNat < 1024 := by omega
  rw [if_neg hn.ne] at hphase
  refine ⟨hcount, ?_, rfl, rfl, rfl, nt_succ hnt, fun k hk => ?_, fun k hk => ?_⟩
  · rw [commitTile_phase, ← hcount, ← hphase]
    rfl
  · rcases Nat.lt_succ_iff_lt_or_eq.1 hk with hlt | rfl
    · refine (htiles k hlt).congr fun r hr => ?_
      exact (readRow_commitTile (s := { s with acc := acc, c := 1, r := 0 }) hnt hr).trans (if_neg hlt.ne)
    · exact hholds
  · refine (readDup_commitTile (s := { s with acc := acc, c := 1, r := 0 }) hnt).trans ?_
    rcases Nat.lt_succ_iff_lt_or_eq.1 hk with hlt | rfl
    · exact (if_neg hlt.ne).trans (hflags k hlt)
    · exact if_pos rfl

theorem TilesLoaded.next_tile (h : TilesLoaded N f n s) (hn : n < N) (hN : N ≤ 1024) (hl : (f n).length = 64) :
    ∃ t, execAll ((f n).map Instr.pix) s = .next t ∧ TilesLoaded N f (n + 1) t ∧ t.out = s.out := by
  have hphase := h.phase
  rw [if_neg hn.ne] at hphase
  have hnt := h.nt
  obtain ⟨acc, he, hholds⟩ := execAll_tile_holds hphase h.c h.r h.acc (by omega) hl
  exact ⟨_, he, h.after_commit hn hN (by rwa [hnt] at hholds ⊢), rfl⟩

theorem TilesLoaded.load (h : TilesLoaded N f 0 s) (hN : N ≤ 1024) (hl : ∀ k, (f k).length = 64) (hn : n ≤ N) :
    ∃ t, execAll ((List.range n).flatMap fun k => (f k).map Instr.pix) s = .next t ∧ TilesLoaded N f n t ∧ t.out = s.out := by
  induction n with
  | zero => exact ⟨s, rfl, h, rfl⟩
  | succ n ih =>
    obtain ⟨t, he, ht, hout⟩ := ih (by omega)
    obtain ⟨u, he', hu, hout'⟩ := ht.next_tile (by omega) hN (hl n)
    refine ⟨u, ?_, hu, hout'.trans hout⟩
    rw [List.range_succ, List.flatMap_append, execAll_append_next he, List.flatMap_singleton, he']

/-- REDUCE of a whole grid keeps its tiles and leaves the closed form. -/
theorem TilesLoaded.reduce (h : TilesLoaded N f N s) (hN : N ≤ 1024) :
    ∃ t, exec .reduce s = .next t ∧ t.phase = .reduced ∧ Reduced t ∧ tileCount t = N ∧ t.out = s.out ∧
      ∀ k < N, TileHolds t k (f k) := by
  obtain ⟨rfl, hphase, -, -, -, hnt, htiles, hflags⟩ := h
  rw [if_pos rfl] at hphase
  obtain ⟨tiles, ht⟩ : ∃ tiles, readTiles s (tileCount s) = some tiles :=
    gather_of_isSome fun k hk => by obtain ⟨_, -, hread⟩ := htiles k (List.mem_range.1 hk); rw [hread]; rfl
  have hd : readDups s (tileCount s) = some (List.replicate (tileCount s) false) :=
    gather_range_eq_some List.length_replicate fun k hk => by simp [hflags k hk, hk]
  obtain ⟨hflag, hentry, hu, hdc, -⟩ := reduceCommit_closed (tiles := tiles) hN hnt rfl
  exact ⟨_, exec_reduce hphase hN ht hd, rfl, ⟨tiles, ht, hflag, hentry, hu, hdc⟩, rfl, rfl,
    fun k hk => (htiles k hk).congr fun _ _ => rfl⟩

end

/-! ### The image -/

section
variable {img : Image}

theorem Image.tile_length (img : Image) (k : Nat) : (img.tile k).length = 64 := by simp [Image.tile, Image.readTile]

theorem Image.tile_getD (img : Image) (k : Nat) {r x : Nat} (hr : r < 8) (hx : x < 8) :
    (img.tile k).getD (8 * r + x) 0#2 =
      img.pixel (8 * (k % img.tileWidth) + x) (8 * (k / img.tileWidth) + r) := by
  have hrow : (8 * r + x) / 8 = r := by omega
  have hcol : (8 * r + x) % 8 = x := by omega
  have hlt : 8 * r + x < 64 := by omega
  simp [Image.tile, Image.readTile, List.getD_eq_getElem?_getD, hlt, hrow, hcol]

theorem Image.valid_dims (h : img.valid = true) :
    1 ≤ img.tileWidth ∧ img.tileWidth ≤ 32 ∧ 1 ≤ img.tileHeight ∧ img.tileHeight ≤ 32 := by
  simp only [Image.valid, Bool.and_eq_true, decide_eq_true_eq] at h
  rw [Image.tileWidth, Image.tileHeight]
  omega

/-- An entry below 256 is the byte of its beat (43_stream_emitter.md R197). -/
theorem entryByte_toNat {e : TileIdx} (h : e.toNat < 256) : (entryByte e).toNat = e.toNat := by
  rw [entryByte, BitVec.extractLsb'_toNat, Nat.shiftRight_zero]
  exact Nat.mod_eq_of_lt h

/-- START and the pixels of a valid image load its whole grid, from every state. -/
theorem Image.load_grid (h : img.valid = true) (s : State) :
    ∃ t, execAll (img.startCommand :: img.pixels) s = .next t ∧ t.out = s.out ∧
      TilesLoaded (img.tileWidth * img.tileHeight) img.tile (img.tileWidth * img.tileHeight) t := by
  obtain ⟨hw1, hw, hh1, hh⟩ := Image.valid_dims h
  have htw : (BitVec.ofNat 6 img.tileWidth).toNat = img.tileWidth := by rw [BitVec.toNat_ofNat]; omega
  have hth : (BitVec.ofNat 6 img.tileHeight).toNat = img.tileHeight := by rw [BitVec.toNat_ofNat]; omega
  have hlegal : 1 ≤ (BitVec.ofNat 6 img.tileWidth).toNat ∧ (BitVec.ofNat 6 img.tileWidth).toNat ≤ 32 ∧
      1 ≤ (BitVec.ofNat 6 img.tileHeight).toNat ∧ (BitVec.ofNat 6 img.tileHeight).toNat ≤ 32 := by omega
  have hstart := tilesLoaded_start (f := img.tile) (s := s) hlegal
  rw [htw, hth] at hstart
  obtain ⟨t, he, ht, hout⟩ := hstart.load (Nat.mul_le_mul hw hh) img.tile_length (Nat.le_refl _)
  refine ⟨t, ?_, hout, ht⟩
  rw [execAll, Image.startCommand, exec_start_of_legal hlegal]
  exact he

end

/-- Settles O55: each of the five parts completes; the entry of a tile names the 16 beats of the tile's rows, and those decode
to its pixels. -/
theorem exportReconstructsTheImage : Obligations.ExportReconstructsTheImage := by
  unfold Obligations.ExportReconstructsTheImage
  intro img s hvalid
  obtain ⟨-, hw, -, hh⟩ := Image.valid_dims hvalid
  have hN : img.tileWidth * img.tileHeight ≤ 1024 := Nat.mul_le_mul hw hh
  obtain ⟨a, hload, hout, ha⟩ := Image.load_grid hvalid s
  obtain ⟨u, hreduce, hphase, hred, hcount, hout', htiles⟩ := ha.reduce hN
  generalize img.tileWidth * img.tileHeight = N at *
  subst hcount
  obtain ⟨tileBeats, mapBeats, hemit, htlen, hmlen, hbeats⟩ := hred.emit_both hphase hN
  have hunique := hred.unique_eq_card (g := img.tile) fun i hi j hj =>
    (htiles i hi).readTile_eq_iff (htiles j hj) (img.tile_length i) (img.tile_length j)
  have hpixels : ∀ k < tileCount u, ∃ e, readEntry u k = some e ∧
      mapBeats[k]? = some (mapBeat u.tw.toNat (tileCount u) k e) ∧
      ∀ r < 8, ∀ x < 8, decodePixel ((tileBeats.map Beat.d).drop (16 * e.toNat)) r x =
        img.pixel (8 * (k % img.tileWidth) + x) (8 * (k / img.tileWidth) + r) := by
    intro k hk
    obtain ⟨e, rows, he, hread, hbeat, hbytes⟩ := hbeats k hk
    refine ⟨e, he, hbeat, fun r hr x hx => ?_⟩
    rw [decodePixel_of_chunk hbytes hr, (htiles k hk).decodePixel hread hr hx, img.tile_getD k hr hx]
  refine ⟨emitBeats mapBeats (emitBeats tileBeats u), tileBeats, mapBeats, ?_, hphase, ?_, hmlen, hunique, htlen,
    fun k hk => ?_, fun hovf k hk => ?_⟩
  · rw [Image.exportCommands, execAll_append_next hload, execAll, hreduce]
    exact hemit
  · rw [emitBeats_out, emitBeats_out, hout', hout]
  · obtain ⟨e, he, hbeat, hpix⟩ := hpixels k hk
    exact ⟨e, _, he, hbeat, rfl, rfl, hpix⟩
  · obtain ⟨e, -, hbeat, hpix⟩ := hpixels k hk
    have hsmall : e.toNat < 256 := Nat.not_le.1 (of_decide_eq_false (hovf _ (List.mem_of_getElem? hbeat)))
    refine ⟨_, hbeat, ?_⟩
    rwa [show (mapBeat u.tw.toNat (tileCount u) k e).d.toNat = e.toNat from entryByte_toNat hsmall]

end Sys2Proof.Machine
end

section
/-! SUPPORT. The DuplicateReducer (42_duplicate_reducer.md): what a state that holds the results of REDUCE shows of its tiles, and
when REDUCE leaves such a state. -/

namespace Sys2Proof.Machine

variable {s : State} {tiles : List TileRows} {i j k : Nat}

/-! ### Canonical tiles and their slots -/

/-- At most `firstOf tiles k` canonical tiles precede the first occurrence, so a slot fits the ten bits of a map entry. -/
theorem slotOf_le (tiles : List TileRows) (k : Nat) : slotOf tiles k ≤ k :=
  calc slotOf tiles k ≤ (List.range (firstOf tiles k)).length := List.countP_le_length
    _ = firstOf tiles k := List.length_range
    _ ≤ k := firstOf_le tiles k

theorem isCanonical_iff : isCanonical tiles k = true ↔ ∀ j < k, tileAt tiles j ≠ tileAt tiles k := by
  rw [isCanonical, decide_eq_true_iff]
  refine ⟨fun hk j hj he => ?_, fun h => ?_⟩
  · have hle := firstOf_le_of_eq tiles he
    omega
  · exact (firstOf_le tiles k).eq_or_lt.resolve_right fun hlt => h _ hlt (tileAt_firstOf tiles k)

/-! ### A state with the results of REDUCE -/

/-- `Reduced` for the rows `tiles`, with the entries as numbers (R168). -/
structure ClosedForm (s : State) (tiles : List TileRows) : Prop where
  rows : readTiles s (tileCount s) = some tiles
  flag : ∀ k < tileCount s, readDup s k = some (BitVec.ofBool (decide (firstOf tiles k < k)))
  entry : ∀ k < tileCount s, ∃ e, readEntry s k = some e ∧ e.toNat = slotOf tiles k
  unique : s.unique.toNat = uniqueOf tiles (tileCount s)
  dupcnt : s.dupcnt.toNat = duplicatesOf tiles (tileCount s)

theorem Reduced.closedForm (h : Reduced s) (hN : tileCount s ≤ 1024) : ∃ tiles, ClosedForm s tiles := by
  obtain ⟨tiles, hrows, hflag, hentry, hunique, hdupcnt⟩ := h
  refine ⟨tiles, hrows, hflag, fun k hk => ⟨_, hentry k hk, ?_⟩, hunique, hdupcnt⟩
  have hle := slotOf_le tiles k
  rw [BitVec.toNat_ofNat, Nat.mod_eq_of_lt (by omega)]

theorem ofBool_eq_one_iff (p : Prop) [Decidable p] : BitVec.ofBool (decide p) = 1#1 ↔ p :=
  (BitVec.ofBool_eq_iff_eq (b' := true)).trans decide_eq_true_iff

theorem ClosedForm.unflagged_iff_isCanonical (h : ClosedForm s tiles) (hk : k < tileCount s) :
    readDup s k = some 0#1 ↔ isCanonical tiles k = true := by
  rw [h.flag k hk, not_lt_iff_isCanonical]
  cases isCanonical tiles k <;> decide

theorem ClosedForm.unflagged_iff_first (h : ClosedForm s tiles) (hk : k < tileCount s) :
    readDup s k = some 0#1 ↔ ∀ j < k, readTile s j ≠ readTile s k := by
  rw [h.unflagged_iff_isCanonical hk, isCanonical_iff]
  refine forall₂_congr fun j hj => ?_
  rw [readTile_eq_tileAt h.rows (hj.trans hk), readTile_eq_tileAt h.rows hk, Ne, Ne, Option.some.injEq]

/-- Two tiles of equal rows have one first occurrence, which comes before the later of them. -/
theorem ClosedForm.later_equal_tile (h : ClosedForm s tiles) (hij : i < j) (hj : j < tileCount s)
    (he : readTile s i = readTile s j) : readEntry s i = readEntry s j ∧ readDup s j = some 1#1 := by
  have hi := hij.trans hj
  have hfirst : firstOf tiles i = firstOf tiles j := (readTile_eq_iff h.rows hi hj).1 he
  have hslot : slotOf tiles i = slotOf tiles j := by rw [slotOf_eq, slotOf_eq, hfirst]
  have hlt : firstOf tiles j < j := hfirst ▸ Nat.lt_of_le_of_lt (firstOf_le tiles i) hij
  obtain ⟨e, hei, hesl⟩ := h.entry i hi
  obtain ⟨e', hej, hesl'⟩ := h.entry j hj
  obtain rfl : e = e' := BitVec.eq_of_toNat_eq (by rw [hesl, hesl', hslot])
  exact ⟨hei.trans hej.symm, by rw [h.flag j hj, (ofBool_eq_one_iff _).2 hlt]⟩

theorem ClosedForm.unique_add_dupcnt (h : ClosedForm s tiles) : s.unique.toNat + s.dupcnt.toNat = tileCount s := by
  rw [h.unique, h.dupcnt, uniqueOf_add_duplicatesOf]

theorem ClosedForm.exists_entry_iff (h : ClosedForm s tiles) (e : TileIdx) :
    (∃ i < tileCount s, readEntry s i = some e) ↔ e.toNat < s.unique.toNat := by
  rw [h.unique]
  constructor
  · rintro ⟨i, hi, he⟩
    obtain ⟨e', he', hslot⟩ := h.entry i hi
    obtain rfl : e' = e := Option.some.inj (he'.symm.trans he)
    exact hslot ▸ slotOf_lt tiles hi
  · intro hlt
    obtain ⟨i, hi, -, hslot⟩ := exists_slot tiles hlt
    obtain ⟨e', he', hslot'⟩ := h.entry i hi
    exact ⟨i, hi, by rw [he', BitVec.eq_of_toNat_eq (hslot'.trans hslot)]⟩

/-- The entry of a canonical tile is its position among the canonical tiles in scan order. -/
theorem ClosedForm.entry_of_unflagged (h : ClosedForm s tiles) (hi : i < tileCount s) (hflag : readDup s i = some 0#1) :
    ∃ e, readEntry s i = some e ∧ e.toNat = (List.range i).countP fun j => decide (readDup s j = some 0#1) := by
  obtain ⟨e, he, hslot⟩ := h.entry i hi
  refine ⟨e, he, ?_⟩
  rw [hslot, slotOf_canonical tiles ((h.unflagged_iff_isCanonical hi).1 hflag), uniqueOf]
  refine List.countP_congr fun j hj => ?_
  rw [decide_eq_true_iff, h.unflagged_iff_isCanonical ((List.mem_range.1 hj).trans hi)]

/-! ### REDUCE in READY -/

/-- REDUCE in READY completes with its results in place, over the tiles as they were. -/
theorem Inv.exec_reduce_closedForm (h : Inv s) (hp : s.phase = .ready) :
    ∃ t tiles, exec .reduce s = .next t ∧ ClosedForm t tiles ∧ tileCount t = tileCount s ∧ readTile t = readTile s := by
  obtain ⟨tiles, ht, -, he⟩ := h.reduce hp
  obtain ⟨tiles', hc⟩ := (h.after_reduce hp ht).2.closedForm h.tileCount_le
  exact ⟨_, tiles', he, hc, rfl, rfl⟩

/-- Settles O31: the loops of P165 leave the closed form, and canonical tiles are one for each content. -/
theorem reduceComputesTheClosedForm : Obligations.ReduceComputesTheClosedForm := by
  unfold Obligations.ReduceComputesTheClosedForm
  intro s hinv hp
  obtain ⟨t, tiles, he, hc, hcount, htile⟩ := hinv.exec_reduce_closedForm hp
  have hcard : uniqueOf tiles (tileCount t) = ((Finset.range (tileCount t)).image (readTile t)).card :=
    uniqueOf_eq_card_image fun i hi j hj => by
      rw [readTile_eq_tileAt hc.rows hi, readTile_eq_tileAt hc.rows hj, Option.some.injEq]
  rw [← hcount, ← htile]
  refine ⟨t, tiles, he, ?_, fun k hk => ⟨_, hc.flag k hk, ofBool_eq_one_iff _⟩, hc.entry, hc.dupcnt, hc.unique,
    hc.unique.trans hcard⟩
  rw [readTiles, ← htile]
  exact hc.rows

/-- Settles O33: each property of the result is one of the closed form. -/
theorem reduceResultProperties : Obligations.ReduceResultProperties := by
  unfold Obligations.ReduceResultProperties
  intro s t hinv hp he
  obtain ⟨t', tiles, he', hc, hcount, htile⟩ := hinv.exec_reduce_closedForm hp
  obtain rfl : t' = t := Host.Outcome.next.inj (he'.symm.trans he)
  rw [← hcount, ← htile]
  exact ⟨fun i j => hc.later_equal_tile, fun i => hc.unflagged_iff_first, hc.unique_add_dupcnt, hc.exists_entry_iff,
    fun i => hc.entry_of_unflagged⟩

/-! ### REDUCE out of READY (R169) -/

theorem code_of_phaseTable_reduce {p : Phase} {code : ErrCode} (h : phaseTable p .reduce = .raise code) : code = .seq := by
  cases p with
  | idle | load | reduced => exact (Verdict.raise.inj h).symm
  | ready | fault => cases h

/-- Settles O34: outside READY the phase table raises ERR_SEQ, and neither a drop nor a completed REDUCE enters FAULT. -/
theorem reduceOutOfPhaseFaults : Obligations.ReduceOutOfPhaseFaults := by
  unfold Obligations.ReduceOutOfPhaseFaults
  refine fun s => ⟨?_, fun t hs he ht => ?_⟩
  · rintro (hidle | hload | hreduced)
    · exact exec_of_raise (by rw [hidle]; rfl)
    · exact exec_of_raise (by rw [hload]; rfl)
    · exact exec_of_raise (by rw [hreduced]; rfl)
  · cases exec_effect he with
    | dropped => exact absurd ht hs
    | raised _ code hraise => exact code_of_phaseTable_reduce hraise
    | reduced => exact absurd ht nofun

end Sys2Proof.Machine
end

section
/-! SUPPORT. The StreamEmitter (43_stream_emitter.md): the two streams beat by beat, and the text the consumer makes of them. -/

namespace Sys2Proof.Machine

variable {s : State} {tiles : List TileRows}

/-! ### The tile stream (R192, R194) -/

/-- Beat `j` of a tile carries a byte of row `j / 2`. -/
theorem tileBeats_getElem?_eq_some (lastTile : Bool) {rows : TileRows} {j : Nat} {w : Word} (hw : rows[j / 2]? = some w) :
    (tileBeats lastTile 0 rows)[j]? =
      some ⟨if j % 2 = 0 then rowHighByte w else rowLowByte w, decide (j = 15), decide (j = 15) && lastTile, false, false⟩ := by
  obtain ⟨r, rfl | rfl⟩ := Nat.even_or_odd' j
  · have hrow : 2 * r / 2 = r := by omega
    have hlast : 2 * r ≠ 15 := by omega
    rw [hrow] at hw
    rw [(tileBeats_getElem? lastTile r 0).1, hw]
    simp [hlast]
  · have hrow : (2 * r + 1) / 2 = r := by omega
    have hodd : (2 * r + 1) % 2 ≠ 0 := by omega
    have hlast : 2 * r + 1 = 15 ↔ 0 + r = 7 := by omega
    rw [hrow] at hw
    rw [(tileBeats_getElem? lastTile r 0).2, hw]
    simp only [hlast, if_neg hodd, Option.map_some]

/-- Settles O36: the k-th unflagged tile is the k-th chunk of 16 beats. -/
theorem emittSendsTheCanonicalTiles : Obligations.EmittSendsTheCanonicalTiles := by
  unfold Obligations.EmittSendsTheCanonicalTiles
  intro s hinv hp
  obtain ⟨tiles, beats, ht, he, hlen, hchunk⟩ := hinv.emitt_chunks hp
  refine ⟨beats, he, hlen, fun k hk j hj => ?_⟩
  generalize hcanonical : (List.range (tileCount s)).filter (fun t => decide (readDup s t = some 0#1)) = canonical at *
  have hnth : canonical[k]? = some (canonical.getD k 0) := by
    rw [List.getD_eq_getElem?_getD, List.getElem?_eq_getElem hk, Option.getD_some]
  generalize canonical.getD k 0 = t at *
  have htN : t < tileCount s := by
    have hmem := List.mem_of_getElem? hnth
    rw [← hcanonical, List.mem_filter, List.mem_range] at hmem
    exact hmem.1
  have hread := readTile_eq_tileAt ht htN
  have hrow : j / 2 < (tileAt tiles t).length := by rw [readTile_length hread]; omega
  have hw := List.getElem?_eq_getElem hrow
  refine ⟨_, (readTile_row hread (by omega)).trans hw, ?_⟩
  rw [← List.getElem?_drop, ← List.getElem?_take_of_lt hj, hchunk k t hnth, tileBeats_getElem?_eq_some _ hw, Bool.decide_and]
  rfl

/-- UNIQUE counts the unflagged tiles. -/
theorem ClosedForm.length_unflagged (h : ClosedForm s tiles) :
    ((List.range (tileCount s)).filter fun t => decide (readDup s t = some 0#1)).length = s.unique.toNat := by
  rw [h.unique, uniqueOf, List.countP_eq_length_filter]
  refine congrArg _ (List.filter_congr fun k hk => Bool.eq_iff_iff.2 ?_)
  rw [decide_eq_true_iff, h.unflagged_iff_isCanonical (List.mem_range.1 hk)]

/-- The 16 * UNIQUE beats of EMITT, and the two flags that mark where a tile and the stream end. -/
theorem Inv.emitt_flags (h : Inv s) (hred : ReducedInv s) (hp : s.phase = .reduced) :
    ∃ beats, exec .emitt s = .next { s with out := s.out ++ beats } ∧ beats.length = 16 * s.unique.toNat ∧
      ∀ (i : Nat) (b : Beat), beats[i]? = some b →
        b.brk = decide ((i + 1) % 16 = 0) ∧ (b.last = true ↔ i + 1 = beats.length) := by
  obtain ⟨tiles, hc⟩ := (hred (h.reduced hp)).closedForm h.tileCount_le
  obtain ⟨beats, he, hlen, hbeat⟩ := emittSendsTheCanonicalTiles s h hp
  rw [hc.length_unflagged] at hlen hbeat
  refine ⟨beats, he, hlen, fun i b hi => ?_⟩
  have hlt : i < beats.length := (List.getElem?_eq_some_iff.1 hi).1
  obtain ⟨w, -, hb⟩ := hbeat (i / 16) (by omega) (i % 16) (by omega)
  rw [Nat.div_add_mod, hi, Option.some.injEq] at hb
  subst hb
  refine ⟨?_, ?_⟩
  · exact decide_eq_decide.2 (by omega)
  · exact decide_eq_true_iff.trans (by omega)

/-- Settles O37: UNIQUE is at least 1 in REDUCED. -/
theorem emittSendsSixteenBeatsPerUniqueTile : Obligations.EmittSendsSixteenBeatsPerUniqueTile := by
  unfold Obligations.EmittSendsSixteenBeatsPerUniqueTile
  intro s hinv hred hp
  obtain ⟨-, -, -, hunique, -⟩ := hinv.reduced_counts (hinv.reduced hp)
  obtain ⟨beats, he, hlen, hflags⟩ := hinv.emitt_flags hred hp
  exact ⟨beats, he, hlen, by omega, fun k b hb => (hflags k b hb).2⟩

/-- Settles O43: an entry is the position of its tile's first occurrence among the tiles that EMITT sends. -/
theorem mapPointsAtTheEmittedTile : Obligations.MapPointsAtTheEmittedTile := by
  unfold Obligations.MapPointsAtTheEmittedTile
  intro s hinv hred hp
  obtain ⟨beats, he, -, hbytes⟩ := (hred (hinv.reduced hp)).emitt hp hinv.tileCount_le
  simp only [List.map_take, List.map_drop] at hbytes
  exact ⟨beats, he, hbytes⟩

/-! ### The map stream (R195, R197) -/

/-- Settles O38: beat `t` of the loop of P195 is that of entry `t`. -/
theorem emitmSendsTheIndexMap : Obligations.EmitmSendsTheIndexMap := by
  unfold Obligations.EmitmSendsTheIndexMap
  intro s hinv hp
  obtain ⟨es, hes, he⟩ := hinv.emitm hp
  have hlen := readEntries_length hes
  refine ⟨_, he, (emitEntries_length ..).trans hlen, fun t ht => ?_⟩
  have hentry := List.getElem?_eq_getElem (hlen.symm ▸ ht : t < es.length)
  refine ⟨_, (readEntries_entry hes ht).trans hentry, ?_⟩
  have hfinal : t + 1 = tileCount s ↔ t = tileCount s - 1 := by omega
  rw [emitEntries_getElem?, hentry, Option.map_some, Nat.zero_add, mapBeat, decide_eq_decide.2 hfinal]
  rfl

/-- WARN is the comparison of UNIQUE with the budget of 256 tiles (R8). -/
theorem Inv.warn_iff (h : Inv s) (hp : s.phase = .reduced) : s.warn = true ↔ 257 ≤ s.unique.toNat := by
  obtain ⟨-, -, -, -, -, hwarn⟩ := h.reduced_counts (h.reduced hp)
  rw [hwarn]
  exact decide_eq_true_iff

/-- The entries of the map are the numbers below UNIQUE, so one of them is 256 or more just when UNIQUE is 257 or more. -/
theorem ClosedForm.exists_large_entry_iff (h : ClosedForm s tiles) :
    (∃ t < tileCount s, ∃ e, readEntry s t = some e ∧ 256 ≤ e.toNat) ↔ 257 ≤ s.unique.toNat := by
  constructor
  · rintro ⟨t, ht, e, he, hlarge⟩
    have hlt := (h.exists_entry_iff e).1 ⟨t, ht, he⟩
    omega
  · intro hunique
    obtain ⟨t, ht, he⟩ := (h.exists_entry_iff 256#10).2 hunique
    exact ⟨t, ht, _, he, Nat.le_refl 256⟩

/-- Settles O42: a beat has `ovf` just when its entry is 256 or more. -/
theorem mapOverflowsExactlyUnderWarning : Obligations.MapOverflowsExactlyUnderWarning := by
  unfold Obligations.MapOverflowsExactlyUnderWarning
  intro s hinv hred hp
  obtain ⟨tiles, hc⟩ := (hred (hinv.reduced hp)).closedForm hinv.tileCount_le
  obtain ⟨beats, he, hlen, hbeat⟩ := emitmSendsTheIndexMap s hinv hp
  refine ⟨beats, he, ?_, hinv.warn_iff hp⟩
  rw [hinv.warn_iff hp, ← hc.exists_large_entry_iff]
  constructor
  · rintro ⟨b, hb, hovf⟩
    obtain ⟨t, ht, rfl⟩ := List.mem_iff_getElem.1 hb
    obtain ⟨e, hentry, hget⟩ := hbeat t (hlen ▸ ht)
    rw [List.getElem?_eq_getElem ht, Option.some.injEq] at hget
    rw [hget] at hovf
    exact ⟨t, hlen ▸ ht, e, hentry, of_decide_eq_true hovf⟩
  · rintro ⟨t, ht, e, hentry, hlarge⟩
    obtain ⟨e', hentry', hget⟩ := hbeat t ht
    obtain rfl : e = e' := Option.some.inj (hentry.symm.trans hentry')
    exact ⟨_, List.mem_of_getElem? hget, decide_eq_true hlarge⟩

/-! ### The text of the streams (R201, R202) -/

theorem renderMap_append (lineBreak delimiter : List Char) (as bs : List Beat) :
    renderMap lineBreak delimiter (as ++ bs) = renderMap lineBreak delimiter as ++ renderMap lineBreak delimiter bs := by
  induction as with
  | nil => rfl
  | cons a as ih => simp [renderMap, ih]

/-- A row whose final beat alone has `brk` ends in the one line break. -/
theorem renderMap_row {lineBreak : List Char} {row : List Beat} (hne : row ≠ [])
    (hbrk : ∀ (i : Nat) (b : Beat), row[i]? = some b → b.brk = decide (i + 1 = row.length)) :
    renderMap lineBreak [] row = (row.map Beat.d).flatMap hexToken ++ lineBreak := by
  induction row with
  | nil => exact absurd rfl hne
  | cons b bs ih =>
    have hb := hbrk 0 b rfl
    cases bs with
    | nil => simp [renderMap, hb]
    | cons c cs =>
      rw [renderMap, ih (List.cons_ne_nil c cs) fun i x hx => by simpa using hbrk (i + 1) x hx]
      simp [hb]

/-- Beats with `brk` on every `c`-th are rows of `c` tokens, each followed by a line break. -/
theorem renderMap_rows {lineBreak : List Char} {c n : Nat} (hc : 0 < c) {beats : List Beat} (hlen : beats.length = c * n)
    (hbrk : ∀ (i : Nat) (b : Beat), beats[i]? = some b → b.brk = decide ((i + 1) % c = 0)) :
    renderMap lineBreak [] beats =
      (List.range n).flatMap fun g => (((beats.map Beat.d).drop (c * g)).take c).flatMap hexToken ++ lineBreak := by
  induction n generalizing beats with
  | zero => rw [List.eq_nil_of_length_eq_zero hlen]; rfl
  | succ n ih =>
    rw [Nat.mul_succ] at hlen
    have hrow : (beats.take c).length = c := by rw [List.length_take]; omega
    have hfirst : renderMap lineBreak [] (beats.take c) = ((beats.take c).map Beat.d).flatMap hexToken ++ lineBreak := by
      refine renderMap_row (List.ne_nil_of_length_pos (by omega)) fun i b hi => ?_
      have hic : i < c := hrow ▸ (List.getElem?_eq_some_iff.1 hi).1
      rw [List.getElem?_take_of_lt hic] at hi
      rw [hbrk i b hi, hrow]
      refine decide_eq_decide.2 ⟨fun h => ?_, fun h => by rw [h, Nat.mod_self]⟩
      exact Nat.le_antisymm hic (Nat.le_of_dvd i.succ_pos (Nat.dvd_of_mod_eq_zero h))
    have hrest := ih (beats := beats.drop c) (by rw [List.length_drop]; omega) fun i b hi => by
      rw [List.getElem?_drop] at hi
      rw [hbrk _ b hi, Nat.add_assoc, Nat.add_mod_left]
    calc renderMap lineBreak [] beats
        = renderMap lineBreak [] (beats.take c) ++ renderMap lineBreak [] (beats.drop c) := by
          rw [← renderMap_append, List.take_append_drop]
      _ = _ := by
          rw [hfirst, hrest, List.range_succ_eq_map]
          simp only [List.map_take, List.map_drop, List.drop_drop, List.flatMap_cons, List.flatMap_map, Nat.mul_zero,
            List.drop_zero, Nat.mul_succ, Nat.add_comm c]

/-- With one more separator after its final beat the tile stream is printed as the map stream is. -/
theorem renderTiles_append_separator {separator : List Char} {beats : List Beat} (hne : beats ≠ [])
    (hlast : ∀ (i : Nat) (b : Beat), beats[i]? = some b → (b.last = true ↔ i + 1 = beats.length))
    (hbrk : ∀ b ∈ beats, b.last = true → b.brk = true) :
    renderTiles separator [] beats ++ separator = renderMap separator [] beats := by
  induction beats with
  | nil => exact absurd rfl hne
  | cons b bs ih =>
    have hb := hlast 0 b rfl
    cases bs with
    | nil =>
      have hl : b.last = true := hb.2 rfl
      simp [renderTiles, renderMap, hl, hbrk b (by simp) hl]
    | cons c cs =>
      have hl : b.last = false := by simpa using hb
      have ih := ih (List.cons_ne_nil c cs) (fun i x hx => by simpa using hlast (i + 1) x hx)
        fun x hx => hbrk x (List.mem_cons_of_mem b hx)
      rw [renderTiles, renderMap, List.append_assoc _ _ separator, ih]
      simp [hl]

/-- With one more mark after the final block, every block is followed by a mark. -/
theorem intercalate_append_mark {α : Type} (mark : List α) {blocks : List (List α)} (hne : blocks ≠ []) :
    List.intercalate mark blocks ++ mark = blocks.flatMap (· ++ mark) := by
  induction blocks with
  | nil => exact absurd rfl hne
  | cons x xs ih =>
    cases xs with
    | nil => simp
    | cons y ys =>
      rw [List.intercalate_cons_cons, List.append_assoc, ih (List.cons_ne_nil y ys)]
      rfl

/-- A stream of blocks of `c` beats, with `brk` at the end of each and `last` on the final beat alone, has one separator between
two blocks and none after the last. -/
theorem renderTiles_blocks {separator : List Char} {c n : Nat} (hc : 0 < c) (hn : 0 < n) {beats : List Beat}
    (hlen : beats.length = c * n)
    (hflags : ∀ (i : Nat) (b : Beat), beats[i]? = some b →
      b.brk = decide ((i + 1) % c = 0) ∧ (b.last = true ↔ i + 1 = beats.length)) :
    renderTiles separator [] beats =
      List.intercalate separator
        ((List.range n).map fun k => (((beats.map Beat.d).drop (c * k)).take c).flatMap hexToken) := by
  have hne : beats ≠ [] := List.ne_nil_of_length_pos (hlen ▸ Nat.mul_pos hc hn)
  refine List.append_cancel_right (bs := separator) ?_
  rw [renderTiles_append_separator hne (fun i b hi => (hflags i b hi).2) fun b hb hl => ?_,
    renderMap_rows hc hlen fun i b hi => (hflags i b hi).1, intercalate_append_mark separator (by simp; omega),
    List.flatMap_map]
  obtain ⟨i, hi⟩ := List.mem_iff_getElem?.1 hb
  obtain ⟨hbrk, hlast⟩ := hflags i b hi
  rw [hbrk, hlast.1 hl, hlen, Nat.mul_mod_right, decide_eq_true rfl]

/-- Settles O44: the tile stream is UNIQUE blocks of 16 beats, the map stream TH rows of TW beats. -/
theorem textHasOneSeparatorBetweenTiles : Obligations.TextHasOneSeparatorBetweenTiles := by
  unfold Obligations.TextHasOneSeparatorBetweenTiles
  intro s mark hinv hred hp
  obtain ⟨-, hN, -, hunique, -⟩ := hinv.reduced_counts (hinv.reduced hp)
  obtain ⟨tileBeats, hemitt, htlen, hflags⟩ := hinv.emitt_flags hred hp
  obtain ⟨mapBeats, hemitm, hmlen, hmap⟩ := emitmSendsTheIndexMap s hinv hp
  have htw : 0 < s.tw.toNat := Nat.pos_of_mul_pos_right hN
  refine ⟨tileBeats, mapBeats, hemitt, hemitm, htlen, hmlen, renderTiles_blocks (by omega) hunique htlen hflags,
    renderMap_rows htw hmlen fun i b hi => ?_⟩
  obtain ⟨e, -, hget⟩ := hmap i (hmlen ▸ (List.getElem?_eq_some_iff.1 hi).1)
  rw [hi, Option.some.injEq] at hget
  rw [hget]

/-! ### Issued again, and issued too early (R193, R196, R199) -/

/-- Settles O40: what EMITT and EMITM read does not include the output. -/
theorem emittingAgainSendsTheSameBeats : Obligations.EmittingAgainSendsTheSameBeats := by
  unfold Obligations.EmittingAgainSendsTheSameBeats
  intro s t i hi hp he
  have hok : phaseTable s.phase i = .ok := by rw [hp]; rcases hi with rfl | rfl <;> rfl
  cases exec_effect he with
  | emittedTiles tiles dups _ ht hd => exact ⟨_, rfl, fun out => exec_emitt (s := { s with out := out }) hp ht hd⟩
  | emittedMap es _ hes => exact ⟨_, rfl, fun out => exec_emitm (s := { s with out := out }) hp hes⟩
  | dropped _ h | raised _ _ h => rw [hok] at h; cases h
  | nop | opened | refused | selected | column | row | commit | reduced => simp at hi

theorem code_of_phaseTable_emit {p : Phase} {i : Instr} {code : ErrCode} (hi : i = .emitt ∨ i = .emitm)
    (h : phaseTable p i = .raise code) : code = .seq := by
  obtain rfl | rfl := hi <;> cases p with
  | idle | load | ready => exact (Verdict.raise.inj h).symm
  | reduced | fault => cases h

theorem phaseTable_emit_early {p : Phase} {i : Instr} (hi : i = .emitt ∨ i = .emitm)
    (hp : p = .idle ∨ p = .load ∨ p = .ready) : phaseTable p i = .raise .seq := by
  obtain rfl | rfl := hi <;> obtain rfl | rfl | rfl := hp <;> rfl

/-- Settles O39: before REDUCED the phase table raises ERR_SEQ, and neither a drop nor an emitted stream enters FAULT. -/
theorem emitOutOfPhaseFaults : Obligations.EmitOutOfPhaseFaults := by
  unfold Obligations.EmitOutOfPhaseFaults
  refine fun s i hi => ⟨fun hp => exec_of_raise (phaseTable_emit_early hi hp), fun t hs he ht => ?_⟩
  cases exec_effect he with
  | raised _ code hraise => exact code_of_phaseTable_emit hi hraise
  | dropped | emittedTiles | emittedMap => exact absurd ht hs
  | nop | opened | refused | selected | column | row | commit | reduced => simp at hi

end Sys2Proof.Machine
end

section
/-! SUPPORT. Faults (60_exceptions.md): how a command enters FAULT, what FAULT drops, and what leaves it. -/

namespace Sys2Proof.Machine

variable {s t : State} {i : Instr}

/-! ### Into FAULT (R225, R226) -/

theorem phaseTable_start (p : Phase) (th tw : Dim) : phaseTable p (.start th tw) = .ok := by
  cases p <;> rfl

/-- A command enters FAULT by the phase table, which raises nothing for START, or as a START that refuses its dimensions. -/
theorem exec_enters_fault (hs : s.phase ≠ .fault) (he : exec i s = .next t) (ht : t.phase = .fault) :
    (∃ code, code ≠ .none ∧ (∀ th tw, i ≠ .start th tw) ∧ t = raiseFault code s) ∨
      ∃ th tw, i = .start th tw ∧ t = refuseGrid (clearExport s) := by
  cases exec_effect he with
  | raised _ code hraise =>
    refine .inl ⟨code, raise_ne_none hraise, fun th tw hi => ?_, rfl⟩
    rw [hi, phaseTable_start] at hraise
    cases hraise
  | refused th tw => exact .inr ⟨th, tw, rfl, rfl⟩
  | nop | dropped | selected | column | row | emittedTiles | emittedMap => exact absurd ht hs
  | opened | reduced => cases ht
  | commit _ hload =>
    rw [commitTile_phase] at ht
    split at ht
    · cases ht
    · exact absurd ht hs

/-- Settles O45: an illegal word and a command out of phase raise a code, and a START refuses its dimensions after its clearing
step. -/
theorem faultEntryWritesErrcodeAndPhase : Obligations.FaultEntryWritesErrcodeAndPhase := by
  unfold Obligations.FaultEntryWritesErrcodeAndPhase
  intro s t w rest hs hport hstep ht
  have hs1 : ({ s with port := rest } : State).phase ≠ .fault := hs
  cases hd : decode w with
  | error e =>
    rw [step_illegal hport hd, illegalWord_of_phase_ne_fault hs1] at hstep
    cases hstep
    exact ⟨nofun, fun _ => rfl, nofun⟩
  | ok i =>
    rw [step_command hport hd] at hstep
    obtain ⟨code, hcode, hi, rfl⟩ | ⟨th, tw, rfl, rfl⟩ := exec_enters_fault hs1 hstep ht
    · exact ⟨hcode, fun _ => rfl, fun th tw hstart => absurd (Except.ok.inj hstart) (hi th tw)⟩
    · exact ⟨nofun, fun hne => absurd rfl (hne th tw), fun _ _ _ => rfl⟩

/-! ### Dropped in FAULT (R227) -/

theorem phaseTable_fault (hi : ∀ th tw, i ≠ .start th tw) : phaseTable .fault i = .drop := by
  cases i with
  | start th tw => exact absurd rfl (hi th tw)
  | nop | pix | reduce | emitt | emitm | sel => rfl

theorem exec_of_fault (hs : s.phase = .fault) (hi : ∀ th tw, i ≠ .start th tw) : exec i s = .next s :=
  exec_of_drop (by rw [hs, phaseTable_fault hi])

theorem illegalWord_of_fault (hs : s.phase = .fault) : illegalWord s = s := if_pos hs

/-- Settles O46: in FAULT the phase table drops every command but START, and an illegal word raises nothing. -/
theorem faultDropsEverythingButStart : Obligations.FaultDropsEverythingButStart := by
  unfold Obligations.FaultDropsEverythingButStart
  intro s w rest hs hport hne
  have hs1 : ({ s with port := rest } : State).phase = .fault := hs
  cases hd : decode w with
  | error e => rw [step_illegal hport hd, illegalWord_of_fault hs1]
  | ok i =>
    have hi : ∀ th tw, i ≠ .start th tw := fun th tw h => hne th tw (by rw [hd, h])
    rw [step_command hport hd, exec_of_fault hs1 hi]

/-! ### Out of FAULT (R228) -/

@[simp] theorem windowRead_phase (a : WinAddr) (s : State) : (windowRead a s).phase = s.phase := by
  unfold windowRead
  split <;> rfl

/-- A reset during a word is a hardware reset of a state in which some beats were delivered (R260). -/
theorem step_resetDuring {w : Word} {k : Nat} {rest : List Txn} (hport : s.port = .resetDuring w k :: rest)
    (hstep : step s = .next t) : ∃ beats, t = hardwareReset { s with port := rest, out := s.out ++ beats } := by
  simp only [step, takeTxn, hport] at hstep
  split at hstep
  · split at hstep <;> cases hstep
    exact ⟨_, rfl⟩
  · cases hstep
    exact ⟨[], by rw [List.append_nil]⟩

/-- Inversion for START: its dimensions choose between two next states. -/
theorem exec_start_cases {th tw : Dim} (he : exec (.start th tw) s = .next t) :
    ((1 ≤ tw.toNat ∧ tw.toNat ≤ 32 ∧ 1 ≤ th.toNat ∧ th.toNat ≤ 32) ∧ t = latchGrid th tw (clearExport s)) ∨
      (¬ (1 ≤ tw.toNat ∧ tw.toNat ≤ 32 ∧ 1 ≤ th.toNat ∧ th.toNat ≤ 32) ∧ t = refuseGrid (clearExport s)) := by
  by_cases hlegal : 1 ≤ tw.toNat ∧ tw.toNat ≤ 32 ∧ 1 ≤ th.toNat ∧ th.toNat ≤ 32
  · rw [exec_start_of_legal hlegal] at he
    exact .inl ⟨hlegal, (Host.Outcome.next.inj he).symm⟩
  · rw [exec_start_of_not_legal hlegal] at he
    exact .inr ⟨hlegal, (Host.Outcome.next.inj he).symm⟩

/-- Of all words a START with legal dimensions alone leaves FAULT. -/
theorem step_command_leaves_fault {w : Word} {rest : List Txn} (hs : s.phase = .fault) (hport : s.port = .command w :: rest)
    (hstep : step s = .next t) (ht : t.phase ≠ .fault) :
    ∃ th tw, decode w = .ok (.start th tw) ∧ (1 ≤ tw.toNat ∧ tw.toNat ≤ 32 ∧ 1 ≤ th.toNat ∧ th.toNat ≤ 32) ∧
      t = latchGrid th tw (clearExport { s with port := rest }) := by
  by_cases hstart : ∃ th tw, decode w = .ok (.start th tw)
  · obtain ⟨th, tw, hd⟩ := hstart
    rw [step_command hport hd] at hstep
    obtain ⟨hlegal, rfl⟩ | ⟨_, rfl⟩ := exec_start_cases hstep
    · exact ⟨th, tw, hd, hlegal, rfl⟩
    · exact absurd rfl ht
  · rw [faultDropsEverythingButStart s w rest hs hport fun th tw hd => hstart ⟨th, tw, hd⟩] at hstep
    cases hstep
    exact absurd hs ht

/-- Settles O47: an idle port, a read and every word but a START keep FAULT; a START opens an export or is refused, and the two
resets end in IDLE. -/
theorem onlyStartOrResetLeavesFault : Obligations.OnlyStartOrResetLeavesFault := by
  unfold Obligations.OnlyStartOrResetLeavesFault
  refine fun s t hs hstep => ⟨fun ht => ?_, fun w rest th tw hport hd => ?_⟩
  · cases hport : s.port with
    | nil =>
      rw [step_empty hport] at hstep
      cases hstep
      exact absurd hs ht
    | cons txn rest =>
      cases txn with
      | command w =>
        obtain ⟨th, tw, hd, ⟨htw, htw', hth, hth'⟩, rfl⟩ := step_command_leaves_fault hs hport hstep ht
        exact ⟨rfl, .inl ⟨w, rest, th, tw, rfl, hd, htw, htw', hth, hth', rfl⟩⟩
      | read a =>
        rw [step_read hport] at hstep
        cases hstep
        rw [windowRead_phase] at ht
        exact absurd hs ht
      | hardReset =>
        rw [step_hardReset hport] at hstep
        cases hstep
        exact ⟨rfl, .inr (.inl ⟨rest, rfl, rfl⟩)⟩
      | resetDuring w k =>
        obtain ⟨beats, rfl⟩ := step_resetDuring hport hstep
        exact ⟨rfl, .inr (.inr ⟨w, k, rest, rfl, rfl⟩)⟩
  · rw [step_command hport hd] at hstep
    obtain ⟨hlegal, rfl⟩ | ⟨hillegal, rfl⟩ := exec_start_cases hstep
    · rw [if_pos hlegal]
      exact ⟨rfl, rfl, rfl, rfl⟩
    · rw [if_neg hillegal]
      exact ⟨rfl, rfl, rfl, rfl⟩

end Sys2Proof.Machine
end

section
/-! SUPPORT. Hardware reset beside START (70_reset_and_hazards.md R263). -/

namespace Sys2Proof.Machine

/-- Both begin with the clearing step of START, so a hardware reset is an accepted START but for PHASE and the dimensions. -/
theorem hardwareReset_eq_latchGrid_clearExport (th tw : Dim) (s : State) :
    hardwareReset s = { latchGrid th tw (clearExport s) with phase := .idle, tw := 0, th := 0 } := rfl

/-- Settles O11: the reset and the accepted START both end in the state that the clearing step leaves, but for the three named
registers. -/
theorem resetAndStartDifferInTwoThings : Obligations.ResetAndStartDifferInTwoThings := by
  unfold Obligations.ResetAndStartDifferInTwoThings
  intro s th tw rest hport htw htw' hth hth'
  exact ⟨_, _, step_hardReset hport, exec_start_of_legal ⟨htw, htw', hth, hth'⟩, rfl, rfl, rfl, rfl, rfl, rfl,
    hardwareReset_eq_latchGrid_clearExport th tw _⟩

end Sys2Proof.Machine
end

section
/-! SUPPORT. Decoding what the encoder makes, the operands of a decoded word, and the step that runs a word (30_encoding.md). -/

namespace Sys2Proof.Machine

/-! ### Words by their fields (R90 to R94) -/

theorem encode_start_eq_append (th tw : Dim) : encode (.start th tw) = 0x1#4 ++ (th ++ tw) := by
  apply BitVec.eq_of_getLsbD_eq
  intro j hj
  rw [BitVec.getLsbD_append, BitVec.getLsbD_append]
  interval_cases j <;> simp [encode]

theorem encode_sel_eq_append (t : TileIdx) : encode (.sel t) = 0x6#4 ++ (0#2 ++ t) := by
  apply BitVec.eq_of_getLsbD_eq
  intro j hj
  rw [BitVec.getLsbD_append, BitVec.getLsbD_append]
  interval_cases j <;> simp [encode]

theorem opcodeField_append (op : BitVec 4) (opd : BitVec 12) : opcodeField (op ++ opd) = op :=
  BitVec.extractLsb'_append_eq_left

theorem operandField_append (op : BitVec 4) (opd : BitVec 12) : operandField (op ++ opd) = opd :=
  BitVec.extractLsb'_append_eq_right

theorem thField_append (th tw : Dim) : thField (th ++ tw) = th := BitVec.extractLsb'_append_eq_left

theorem twField_append (th tw : Dim) : twField (th ++ tw) = tw := BitVec.extractLsb'_append_eq_right

theorem tileField_append (t : TileIdx) : tileField (0#2 ++ t) = t := BitVec.extractLsb'_append_eq_right

theorem decode_encode_start (th tw : Dim) : decode (encode (.start th tw)) = .ok (.start th tw) := by
  rw [encode_start_eq_append]
  simp [decode, opcodeField_append, operandField_append, thField_append, twField_append]

theorem decode_encode_sel (t : TileIdx) : decode (encode (.sel t)) = .ok (.sel t) := by
  have hhigh : (0#2 ++ t : BitVec 12).extractLsb' 10 2 = 0#2 := BitVec.extractLsb'_append_eq_left
  rw [encode_sel_eq_append]
  simp [decode, opcodeField_append, operandField_append, hhigh, tileField_append]

/-- Settles O2: the word of START, PIX or SEL is its opcode before its operands, and those of format Z are four fixed words. -/
theorem decodeOfEncodeIsIdentity : Obligations.DecodeOfEncodeIsIdentity := by
  unfold Obligations.DecodeOfEncodeIsIdentity
  intro i
  cases i with
  | start th tw => exact decode_encode_start th tw
  | pix v => exact decode_encode_pix v
  | sel t => exact decode_encode_sel t
  | nop | reduce | emitt | emitm => rfl

/-! ### Words by their numbers (R92 to R94, R97 to R99) -/

/-- The commands a word can decode to: the three with operands carry its own fields. -/
theorem decode_ok_mem {w : Word} {i : Instr} (h : decode w = .ok i) :
    i ∈ [.start (thField (operandField w)) (twField (operandField w)), .pix (pixelField (operandField w)),
      .sel (tileField (operandField w)), .nop, .reduce, .emitt, .emitm] := by
  have decoded {j : Instr} (hd : decode w = .ok j) : i = j := Except.ok.inj (h.symm.trans hd)
  have illegal {p : Prop} (hd : ∃ e, decode w = .error e) : p := by simp [h] at hd
  rcases decode_cases w with ⟨-, hd⟩ | ⟨-, hd⟩ | ⟨-, hd⟩ | ⟨-, -, hd⟩ | ⟨-, hd⟩ | ⟨-, hd⟩ | ⟨-, hd⟩ | ⟨-, hd⟩ | ⟨-, -, hd⟩ |
    ⟨-, hd⟩
  · simp [decoded hd]
  · simp [decoded hd]
  · simp [decoded hd]
  · exact illegal hd
  · simp [decoded hd]
  · simp [decoded hd]
  · simp [decoded hd]
  · simp [decoded hd]
  · exact illegal hd
  · exact illegal hd

/-- Settles O4: a decoded START, PIX or SEL carries the word's own fields, and each field is the word divided and reduced. -/
theorem decodedOperandsAreLiteralFields : Obligations.DecodedOperandsAreLiteralFields := by
  unfold Obligations.DecodedOperandsAreLiteralFields
  refine fun w => ⟨fun th tw h => ?_, fun v h => ?_, fun t h => ?_⟩
  · obtain ⟨rfl, rfl⟩ : th = thField (operandField w) ∧ tw = twField (operandField w) := by simpa using decode_ok_mem h
    rw [thField_toNat, twField_toNat, operandField_toNat]
    omega
  · obtain rfl : v = pixelField (operandField w) := by simpa using decode_ok_mem h
    rw [pixelField_toNat, operandField_toNat]
    omega
  · obtain rfl : t = tileField (operandField w) := by simpa using decode_ok_mem h
    rw [tileField_toNat, operandField_toNat]
    omega

/-- Settles O6: of the ten cases of decode those that answer an error are the listed ranges. -/
theorem illegalWordsAreTheListedOnes : Obligations.IllegalWordsAreTheListedOnes := by
  unfold Obligations.IllegalWordsAreTheListedOnes
  exact fun _ => decode_error_iff

/-- Settles O1: each word evaluates to what the spec's vectors say. -/
theorem specWordsDecode : Obligations.SpecWordsDecode := by
  unfold Obligations.SpecWordsDecode
  decide

/-! ### The step that takes a word (20_memory.md R71, R74) -/

theorem portWord_toNat (w : Word) : portWord 16 w.toNat = w := by
  rw [portWord, Nat.mod_eq_of_lt w.isLt, BitVec.ofNat_toNat, BitVec.setWidth_eq]

/-- Settles O16: the port hands over the word that was put there, and that word decodes to its command. -/
theorem stepRunsTheDecodedCommand : Obligations.StepRunsTheDecodedCommand := by
  unfold Obligations.StepRunsTheDecodedCommand
  refine ⟨fun s w rest i hport hd => step_command hport hd, fun s i => ?_⟩
  have hport : (s.withFetchWord 16 (encode i).toNat).port = .command (encode i) :: s.port := by
    rw [State.withFetchWord, portWord_toNat]
  exact step_command hport (decodeOfEncodeIsIdentity i)

/-- Settles O17: with no transaction to take there is nothing to do. -/
theorem idlePortHoldsState : Obligations.IdlePortHoldsState := by
  unfold Obligations.IdlePortHoldsState
  exact fun _ => step_empty

end Sys2Proof.Machine
end

section
/-! SUPPORT. The invariants along a run (10_state.md R35, R51; 70_reset_and_hazards.md R270): what a step can do, said once; that every
command and every other transaction keeps both invariants, and that under `Inv` none of them stops. -/

namespace Sys2Proof.Machine

variable {s t : State} {i : Instr}

/-! ### Everything a step can answer as a next state -/

/-- The kinds of transaction, each with the next state it makes. -/
inductive StepEffect (s : State) : State → Prop where
  | idle (hport : s.port = []) : StepEffect s s
  | ran {t : State} (w : Word) (i : Instr) (rest : List Txn) (hport : s.port = .command w :: rest) (hd : decode w = .ok i)
    (he : exec i { s with port := rest } = .next t) : StepEffect s t
  | illegal (w : Word) (e : DecodeError) (rest : List Txn) (hport : s.port = .command w :: rest) (hd : decode w = .error e) :
    StepEffect s (illegalWord { s with port := rest })
  | read (a : WinAddr) (rest : List Txn) (hport : s.port = .read a :: rest) :
    StepEffect s (windowRead a { s with port := rest })
  | hardReset (rest : List Txn) (hport : s.port = .hardReset :: rest) : StepEffect s (hardwareReset { s with port := rest })
  | resetDuring (w : Word) (k : Nat) (rest : List Txn) (beats : List Beat) (hport : s.port = .resetDuring w k :: rest) :
    StepEffect s (hardwareReset { s with port := rest, out := s.out ++ beats })

/-- Inversion: a next state of step comes about in one of these ways. -/
theorem step_effect (h : step s = .next t) : StepEffect s t := by
  cases hport : s.port with
  | nil =>
    rw [step_empty hport] at h
    cases h
    exact .idle hport
  | cons txn rest =>
    cases txn with
    | command w =>
      cases hd : decode w with
      | ok i =>
        rw [step_command hport hd] at h
        exact .ran w i rest hport hd h
      | error e =>
        rw [step_illegal hport hd] at h
        cases h
        exact .illegal w e rest hport hd
    | read a =>
      rw [step_read hport] at h
      cases h
      exact .read a rest hport
    | hardReset =>
      rw [step_hardReset hport] at h
      cases h
      exact .hardReset rest hport
    | resetDuring w k =>
      obtain ⟨beats, rfl⟩ := step_resetDuring hport h
      exact .resetDuring w k rest beats hport

/-- A window read leaves all but the host's side as it was (R36). -/
theorem windowRead_eq (a : WinAddr) (s : State) :
    windowRead a s = { s with reads := (windowRead a s).reads, draws := (windowRead a s).draws } := by
  unfold windowRead
  split <;> rfl

/-- An illegal word is dropped or raises ERR_ILLEGAL, and does nothing else (R97, R98, R227). -/
theorem illegalWord_cases (s : State) : illegalWord s = s ∨ illegalWord s = raiseFault .illegal s := by
  unfold illegalWord
  split
  · exact .inl rfl
  · exact .inr rfl

/-! ### `Inv` -/

theorem Inv.after_sel (h : Inv s) (x : TileIdx) : Inv { s with sel := x } :=
  ⟨h.col, h.fault_iff, h.dims, h.idle, h.load, h.ready, h.reduced, h.reduced_counts, h.not_reduced, h.tiles_le, h.acc_clear,
    h.rows_valued, h.dups_valued, h.dups_false, h.entries_valued, h.tgrow_wf, h.tgdup_wf, h.imap_wf⟩

theorem Inv.rdone_of_load (h : Inv s) (hp : s.phase = .load) : s.rdone = false := (h.load hp).2.2

/-- The flags that a REDUCE in READY reads are clear (R166). -/
theorem Inv.dups_of_ready (h : Inv s) (hp : s.phase = .ready) {dups : List Bool}
    (hd : readDups s (tileCount s) = some dups) : dups = List.replicate (tileCount s) false := by
  obtain ⟨hn, -, -, hr⟩ := h.ready hp
  exact Option.some.inj (hd.symm.trans (h.dups_replicate hr (Nat.le_of_eq hn.symm)))

theorem Inv.after_exec (h : Inv s) (he : exec i s = .next t) : Inv t := by
  cases exec_effect he with
  | nop | dropped => exact h
  | raised _ _ hraise => exact h.after_raiseFault (raise_ne_none hraise)
  | opened _ _ hd => exact h.after_latchGrid hd
  | refused => exact h.after_refuseGrid
  | selected x => exact h.after_sel x
  | column _ hp hc => exact h.after_column hp hc
  | row _ hp hc hr => exact h.after_row hp hc hr
  | commit _ hp _ _ hn => exact h.after_commit hp hn rfl rfl
  | reduced tiles dups hp _ ht hd =>
    obtain rfl := h.dups_of_ready hp hd
    exact (h.after_reduce hp ht).1
  | emittedTiles | emittedMap => exact h.congr_host rfl

/-- Settles O13: each kind of transaction keeps the invariant, which says nothing of the host's side. -/
theorem stepKeepsInvariant : Obligations.StepKeepsInvariant := by
  unfold Obligations.StepKeepsInvariant
  intro s t h hstep
  have taken (rest : List Txn) (out : List Beat) : Inv { s with port := rest, out := out } := h.congr_host rfl
  cases step_effect hstep with
  | idle => exact h
  | ran w i rest _ _ he => exact (taken rest s.out).after_exec he
  | illegal w e rest =>
    rcases illegalWord_cases { s with port := rest } with hi | hi <;> rw [hi]
    · exact taken rest s.out
    · exact (taken rest s.out).after_raiseFault nofun
  | read a rest =>
    rw [windowRead_eq]
    exact h.congr_host rfl
  | hardReset rest | resetDuring _ _ rest => exact (taken rest _).after_hardwareReset

/-! ### `ReducedInv` -/

/-- The results of REDUCE are in these fields, so a state that shares them with `s` has them if `s` does. -/
theorem ReducedInv.congr (h : ReducedInv s) (hrd : t.rdone = s.rdone) (htw : t.tw = s.tw) (hth : t.th = s.th)
    (hrow : ∀ k r, readRow t k r = readRow s k r) (hdup : ∀ k, readDup t k = readDup s k)
    (hentry : ∀ k, readEntry t k = readEntry s k) (hu : t.unique = s.unique) (hdc : t.dupcnt = s.dupcnt) : ReducedInv t :=
  fun hr => (h (hrd.symm.trans hr)).congr htw hth hrow hdup hentry hu hdc

theorem ReducedInv.after_raiseFault (h : ReducedInv s) (code : ErrCode) : ReducedInv (raiseFault code s) :=
  h.congr rfl rfl rfl (fun _ _ => rfl) (fun _ => rfl) (fun _ => rfl) rfl rfl

theorem reducedInv_of_not_rdone (h : s.rdone = false) : ReducedInv s := fun hr => absurd hr (by simp [h])

theorem ReducedInv.after_exec (h : Inv s) (hred : ReducedInv s) (he : exec i s = .next t) : ReducedInv t := by
  cases exec_effect he with
  | nop | dropped => exact hred
  | raised _ code => exact hred.after_raiseFault code
  | opened | refused => exact reducedInv_of_not_rdone rfl
  | column _ hp | row _ hp | commit _ hp => exact reducedInv_of_not_rdone (h.rdone_of_load hp)
  | reduced tiles dups hp _ ht hd =>
    obtain rfl := h.dups_of_ready hp hd
    exact fun _ => (h.after_reduce hp ht).2
  | selected | emittedTiles | emittedMap =>
    exact hred.congr rfl rfl rfl (fun _ _ => rfl) (fun _ => rfl) (fun _ => rfl) rfl rfl

/-- Settles O15: REDUCE sets the closed form, and whatever else changes an element of it first takes RDONE back. -/
theorem stepKeepsReducedResults : Obligations.StepKeepsReducedResults := by
  unfold Obligations.StepKeepsReducedResults
  intro s t h hred hstep
  have taken (rest : List Txn) : ReducedInv { s with port := rest } :=
    hred.congr rfl rfl rfl (fun _ _ => rfl) (fun _ => rfl) (fun _ => rfl) rfl rfl
  cases step_effect hstep with
  | idle => exact hred
  | ran w i rest _ _ he => exact ReducedInv.after_exec (h.congr_host rfl) (taken rest) he
  | illegal w e rest =>
    rcases illegalWord_cases { s with port := rest } with hi | hi <;> rw [hi]
    · exact taken rest
    · exact (taken rest).after_raiseFault _
  | read a rest =>
    rw [windowRead_eq]
    exact hred.congr rfl rfl rfl (fun _ _ => rfl) (fun _ => rfl) (fun _ => rfl) rfl rfl
  | hardReset | resetDuring => exact reducedInv_of_not_rdone rfl

/-- The reset state is one closed state without a stored element, so every part of the invariant evaluates on it. -/
theorem inv_stateReset : Inv State.reset := by constructor <;> decide

/-- Settles O12: before a REDUCE there are no results to speak of. -/
theorem resetStateMeetsInvariants : Obligations.ResetStateMeetsInvariants := by
  unfold Obligations.ResetStateMeetsInvariants
  exact ⟨inv_stateReset, reducedInv_of_not_rdone rfl⟩

/-! ### No stop under `Inv` -/

theorem phase_of_pix_ok {p : Phase} {v : Pixel} (h : phaseTable p (.pix v) = .ok) : p = .load := by
  cases p with
  | load => rfl
  | idle | ready | reduced | fault => cases h

theorem phase_of_reduce_ok {p : Phase} (h : phaseTable p .reduce = .ok) : p = .ready := by
  cases p with
  | ready => rfl
  | idle | load | reduced | fault => cases h

theorem phase_of_emit_ok {p : Phase} (hi : i = .emitt ∨ i = .emitm) (h : phaseTable p i = .ok) : p = .reduced := by
  obtain rfl | rfl := hi <;> cases p with
  | reduced => rfl
  | idle | load | ready | fault => cases h

theorem phase_of_sel_ok {p : Phase} {x : TileIdx} (h : phaseTable p (.sel x) = .ok) : p ≠ .fault := by
  rintro rfl
  cases h

/-- In LOAD there is room for the tile that a PIX may commit. -/
theorem Inv.exec_pix_completes (h : Inv s) (hp : s.phase = .load) (v : Pixel) : ∃ t, exec (.pix v) s = .next t := by
  obtain ⟨-, hn, -⟩ := h.load hp
  by_cases hc : s.c.toNat < 8
  · exact ⟨_, exec_pix_column hp hc⟩
  by_cases hr : s.r.toNat < 7
  · exact ⟨_, exec_pix_row hp hc hr⟩
  · exact ⟨_, exec_pix_commit hp hc hr (Nat.lt_of_lt_of_le hn h.tileCount_le)⟩

theorem Inv.exec_completes (h : Inv s) (i : Instr) : ∃ t, exec i s = .next t := by
  cases hv : phaseTable s.phase i with
  | raise code => exact ⟨_, exec_of_raise hv⟩
  | drop => exact ⟨_, exec_of_drop hv⟩
  | ok =>
    cases i with
    | nop => exact ⟨_, exec_nop s⟩
    | start th tw => exact ⟨_, exec_start th tw s⟩
    | pix v => exact h.exec_pix_completes (phase_of_pix_ok hv) v
    | reduce =>
      obtain ⟨_, -, -, he⟩ := h.reduce (phase_of_reduce_ok hv)
      exact ⟨_, he⟩
    | emitt =>
      obtain ⟨_, _, -, -, he⟩ := h.emitt (phase_of_emit_ok (.inl rfl) hv)
      exact ⟨_, he⟩
    | emitm =>
      obtain ⟨_, -, he⟩ := h.emitm (phase_of_emit_ok (.inr rfl) hv)
      exact ⟨_, he⟩
    | sel x => exact ⟨_, exec_sel (phase_of_sel_ok hv)⟩

/-! ### A reset during a word (R260) -/

theorem step_resetDuring_of_exec {w : Word} {k : Nat} {rest : List Txn} {done : State}
    (hport : s.port = .resetDuring w k :: rest) (hd : decode w = .ok i) (he : exec i { s with port := rest } = .next done) :
    step s = .next (abandonCommand k done { s with port := rest }) := by
  simp [step, takeTxn, hport, hd, he]

theorem step_resetDuring_of_illegal {w : Word} {k : Nat} {rest : List Txn} {e : DecodeError}
    (hport : s.port = .resetDuring w k :: rest) (hd : decode w = .error e) :
    step s = .next (hardwareReset { s with port := rest }) := by
  simp [step, takeTxn, hport, hd]

@[simp] theorem illegalWord_out (s : State) : (illegalWord s).out = s.out := by
  rcases illegalWord_cases s with hi | hi <;> rw [hi]
  rfl

/-- Settles O10: the word completes under the invariant, so its beats are those its own step sends; the reset keeps the first `taken` of
them. -/
theorem resetDuringACommandAbandonsIt : Obligations.ResetDuringACommandAbandonsIt := by
  unfold Obligations.ResetDuringACommandAbandonsIt
  intro s w taken rest h hport
  cases hd : decode w with
  | error e =>
    refine ⟨_, [], step_resetDuring_of_illegal hport hd, atReset_hardwareReset _, rfl, by simp, fun u hu => ?_⟩
    rw [step_illegal rfl hd] at hu
    cases hu
    simp
  | ok i =>
    have h1 : Inv { s with port := rest } := h.congr_host rfl
    obtain ⟨done, he⟩ := h1.exec_completes i
    obtain ⟨beats, hout⟩ := exec_out he
    refine ⟨_, beats, step_resetDuring_of_exec hport hd he, atReset_hardwareReset _, rfl, ?_, fun u hu => ?_⟩
    · simp [hout]
    · rw [step_command rfl hd, he] at hu
      cases hu
      exact hout

/-- Settles O14: every command completes, and the other transactions always do. -/
theorem stepAlwaysContinues : Obligations.StepAlwaysContinues := by
  unfold Obligations.StepAlwaysContinues
  intro s h
  cases hport : s.port with
  | nil => exact ⟨_, step_empty hport⟩
  | cons txn rest =>
    have h1 : Inv { s with port := rest } := h.congr_host rfl
    cases txn with
    | command w =>
      cases hd : decode w with
      | ok i =>
        rw [step_command hport hd]
        exact h1.exec_completes i
      | error e => exact ⟨_, step_illegal hport hd⟩
    | read a => exact ⟨_, step_read hport⟩
    | hardReset => exact ⟨_, step_hardReset hport⟩
    | resetDuring w k =>
      cases hd : decode w with
      | ok i =>
        obtain ⟨done, he⟩ := h1.exec_completes i
        exact ⟨_, step_resetDuring_of_exec hport hd he⟩
      | error e => exact ⟨_, step_resetDuring_of_illegal hport hd⟩

end Sys2Proof.Machine
end

section
/-! SUPPORT. What every command keeps: SEL and its lack of influence, the memories, the output, the results of REDUCE, and the
transitions of PHASE. -/

namespace Sys2Proof.Machine

variable {s t : State} {i : Instr}

/-! ### SEL (R31) -/

/-- Settles O22: no command but START and SEL reads or writes SEL, so its effect is the same with another SEL. -/
theorem selInfluencesNoOtherCommand : Obligations.SelInfluencesNoOtherCommand := by
  unfold Obligations.SelInfluencesNoOtherCommand
  intro i s t x hstart hsel he
  cases exec_effect he with
  | nop => exact ⟨rfl, exec_nop _⟩
  | dropped _ h => exact ⟨rfl, exec_of_drop h⟩
  | raised _ _ h => exact ⟨rfl, exec_of_raise h⟩
  | opened th tw | refused th tw => exact absurd rfl (hstart th tw)
  | selected y => exact absurd rfl (hsel y)
  | column _ h hc => exact ⟨rfl, exec_pix_column (s := { s with sel := x }) h hc⟩
  | row _ h hc hr => exact ⟨rfl, exec_pix_row (s := { s with sel := x }) h hc hr⟩
  | commit _ h hc hr hn => exact ⟨rfl, exec_pix_commit (s := { s with sel := x }) h hc hr hn⟩
  | reduced _ _ h hn ht hd => exact ⟨rfl, exec_reduce (s := { s with sel := x }) h hn ht hd⟩
  | emittedTiles _ _ h ht hd => exact ⟨rfl, exec_emitt (s := { s with sel := x }) h ht hd⟩
  | emittedMap _ h hes => exact ⟨rfl, exec_emitm (s := { s with sel := x }) h hes⟩

/-! ### The memories (R69) -/

/-- Settles O23: a commit and a REDUCE alone write a memory. -/
theorem nonStoringCommandsLeaveMemory : Obligations.NonStoringCommandsLeaveMemory := by
  unfold Obligations.NonStoringCommandsLeaveMemory
  intro i s t hi he a
  cases exec_effect he with
  | commit | reduced | column | row => simp at hi
  | nop | dropped | raised | opened | refused | selected | emittedTiles | emittedMap => exact ⟨rfl, rfl, rfl⟩

/-! ### What REDUCE leaves (R165) -/

/-- REDUCE writes the elements below `N` alone. -/
theorem memRead_reduceCommit_of_le {tiles : List TileRows} {n a : Nat} (ha : n ≤ a) :
    memRead (reduceCommit n (reduceRun tiles n (List.replicate n false)) s).tgdup a = memRead s.tgdup a ∧
      memRead (reduceCommit n (reduceRun tiles n (List.replicate n false)) s).imap a = memRead s.imap a := by
  have hloop := reduceRun_loopInv (tiles := tiles) (n := n)
  exact ⟨memRead_memWriteRun_outside (.inr (by simpa [hloop.dup_length] using ha)),
    memRead_memWriteRun_outside (.inr (by simpa [hloop.im_length] using ha))⟩

/-- Settles O32: the counts and WARN are those the invariant asks for after REDUCE, and the rest is what it does not write. -/
theorem reduceSetsCountsFlagsAndFrame : Obligations.ReduceSetsCountsFlagsAndFrame := by
  unfold Obligations.ReduceSetsCountsFlagsAndFrame
  intro s h hp
  obtain ⟨tiles, ht, -, he⟩ := h.reduce hp
  obtain ⟨-, -, -, -, hsum, hwarn⟩ := (h.after_reduce hp ht).1.reduced_counts rfl
  exact ⟨_, he, hsum, hwarn, rfl, rfl, fun _ => rfl, fun _ => memRead_reduceCommit_of_le, rfl⟩

/-! ### The results in REDUCED (R270) -/

/-- In REDUCED the words but START raise a fault, emit or set SEL. -/
theorem exec_keeps_results (hp : s.phase = .reduced) (hi : ∀ th tw, i ≠ .start th tw) (he : exec i s = .next t) :
    (∀ k r, readRow t k r = readRow s k r) ∧ (∀ k, readDup t k = readDup s k) ∧ (∀ k, readEntry t k = readEntry s k) ∧
      t.unique = s.unique ∧ t.dupcnt = s.dupcnt ∧ t.warn = s.warn ∧ t.rdone = s.rdone := by
  cases exec_effect he with
  | opened th tw | refused th tw => exact absurd rfl (hi th tw)
  | column _ h | row _ h | commit _ h | reduced _ _ h => rw [hp] at h; cases h
  | nop | dropped | raised | selected | emittedTiles | emittedMap =>
    exact ⟨fun _ _ => rfl, fun _ => rfl, fun _ => rfl, rfl, rfl, rfl, rfl⟩

/-- Settles O35: a legal word keeps the results, and an illegal one raises its fault. -/
theorem resultsAreFinal : Obligations.ResultsAreFinal := by
  unfold Obligations.ResultsAreFinal
  intro s t w rest hp hport hne hstep
  cases hd : decode w with
  | ok i =>
    rw [step_command hport hd] at hstep
    exact exec_keeps_results (s := { s with port := rest }) hp (fun th tw hi => hne th tw (hi ▸ hd)) hstep
  | error e =>
    have hs1 : ({ s with port := rest } : State).phase ≠ .fault := by simp [hp]
    rw [step_illegal hport hd, illegalWord_of_phase_ne_fault hs1] at hstep
    cases hstep
    exact ⟨fun _ _ => rfl, fun _ => rfl, fun _ => rfl, rfl, rfl, rfl, rfl⟩

/-! ### The output (R76, R191) -/

theorem tileBeats_kind {lastTile : Bool} {r : Nat} {rows : TileRows} : ∀ b ∈ tileBeats lastTile r rows, b.kind = false := by
  induction rows generalizing r with
  | nil => exact nofun
  | cons w ws ih => simpa [tileBeats] using ih

theorem emitTiles_kind {unique k : Nat} {dups : List Bool} {tiles : List TileRows} :
    ∀ b ∈ emitTiles unique k dups tiles, b.kind = false := by
  intro b hb
  rw [emitTiles_eq, List.mem_flatMap] at hb
  obtain ⟨_, -, hb⟩ := hb
  exact tileBeats_kind b hb

theorem emitEntries_kind {tw n t : Nat} {es : List TileIdx} : ∀ b ∈ emitEntries tw n t es, b.kind = true := by
  induction es generalizing t with
  | nil => exact nofun
  | cons e es ih => simpa [emitEntries, mapBeat] using ih

/-- Settles O41: but for the two streams, each of one kind, every effect leaves the output as it was. -/
theorem onlyEmittAndEmitmEmit : Obligations.OnlyEmittAndEmitmEmit := by
  unfold Obligations.OnlyEmittAndEmitmEmit
  intro i s t he
  cases exec_effect he with
  | emittedTiles _ _ hp => exact ⟨_, rfl, fun _ => ⟨hp, .inl rfl⟩, emitTiles_kind⟩
  | emittedMap _ hp => exact ⟨_, rfl, fun _ => ⟨hp, .inr rfl⟩, emitEntries_kind⟩
  | nop | dropped | raised | opened | refused | selected | column | row | commit | reduced =>
    exact ⟨[], (List.append_nil s.out).symm, fun hne => absurd rfl hne, nofun⟩

/-! ### PHASE (R27, R108) -/

/-- The phase table raises a fault for the commands that have a phase of their own, outside it. -/
theorem phase_of_raise {p : Phase} {code : ErrCode} (h : phaseTable p i = .raise code) :
    p ≠ .fault ∧ (((∃ v, i = .pix v) ∧ p ≠ .load) ∨ (i = .reduce ∧ p ≠ .ready) ∨ ((i = .emitt ∨ i = .emitm) ∧ p ≠ .reduced)) := by
  have hp : p ≠ .fault := by rintro rfl; cases i <;> cases h
  refine ⟨hp, ?_⟩
  cases i with
  | start th tw => rw [phaseTable_start] at h; cases h
  | nop | sel => cases p <;> cases h
  | pix v => exact .inl ⟨⟨v, rfl⟩, by rintro rfl; cases h⟩
  | reduce => exact .inr (.inl ⟨rfl, by rintro rfl; cases h⟩)
  | emitt => exact .inr (.inr ⟨.inl rfl, by rintro rfl; cases h⟩)
  | emitm => exact .inr (.inr ⟨.inr rfl, by rintro rfl; cases h⟩)

/-- Settles O48: each effect that changes PHASE is one of the four transitions. -/
theorem phaseMachineTransitions : Obligations.PhaseMachineTransitions := by
  unfold Obligations.PhaseMachineTransitions
  intro i s t he hne
  cases exec_effect he with
  | nop | dropped | selected | column | row | emittedTiles | emittedMap => exact absurd rfl hne
  | opened th tw hd => exact .inl ⟨th, tw, rfl, by rw [if_pos (dimsOk_iff.1 hd)]; rfl⟩
  | refused th tw hd =>
    have hillegal : ¬ (1 ≤ tw.toNat ∧ tw.toNat ≤ 32 ∧ 1 ≤ th.toNat ∧ th.toNat ≤ 32) := fun hlegal =>
      Bool.false_ne_true (hd.symm.trans (dimsOk_iff.2 hlegal))
    exact .inl ⟨th, tw, rfl, by rw [if_neg hillegal]; rfl⟩
  | commit v hp _ _ hn =>
    by_cases hlast : s.nt.toNat + 1 = tileCount s
    · exact .inr (.inl ⟨hp, ⟨v, rfl⟩, if_pos hlast, (nt_succ hn).trans hlast⟩)
    · exact absurd (if_neg hlast) hne
  | reduced _ _ hp => exact .inr (.inr (.inl ⟨hp, rfl, rfl⟩))
  | raised _ _ hraise =>
    obtain ⟨hp, hi⟩ := phase_of_raise hraise
    exact .inr (.inr (.inr ⟨hp, rfl, hi⟩))

/-! ### Window reads (R36) -/

/-- Settles O51: what a read records is the shown value or a fresh draw, and it writes no element of the block. -/
theorem windowReadsChangeNoState : Obligations.WindowReadsChangeNoState := by
  unfold Obligations.WindowReadsChangeNoState
  intro s a rest hport
  cases hshown : windowShown s a with
  | value data => exact ⟨data, s.draws, step_read_value hport hshown⟩
  | unspec width => exact ⟨_, _, step_read_unspec hport hshown⟩

end Sys2Proof.Machine
end

section
/-! SUPPORT. Where the model stops (10_state.md R32 to R35), and that no state with the invariant stops there. -/

namespace Sys2Proof.Machine

variable {s : State}

/-! ### Reads of elements without a value -/

theorem gather_eq_none {α : Type} {f : Nat → Option α} {l : List Nat} {a : Nat} (ha : a ∈ l) (h : f a = none) :
    gather f l = none := by
  refine Option.eq_none_iff_forall_ne_some.2 fun ys hys => ?_
  have hmem : f a ∈ ys.map some := gather_eq_some_iff.1 hys ▸ List.mem_map_of_mem ha
  simp [h] at hmem

theorem readTiles_eq_none {n k r : Nat} (hk : k < n) (hr : r < 8) (h : readRow s k r = none) : readTiles s n = none :=
  gather_eq_none (List.mem_range.2 hk) (gather_eq_none (List.mem_range.2 hr) h)

theorem readDups_eq_none {n k : Nat} (hk : k < n) (h : readDup s k = none) : readDups s n = none :=
  gather_eq_none (List.mem_range.2 hk) (by rw [h]; rfl)

theorem readEntries_eq_none {n k : Nat} (hk : k < n) (h : readEntry s k = none) : readEntries s n = none :=
  gather_eq_none (List.mem_range.2 hk) h

theorem exists_readTiles {n : Nat} (h : ∀ k < n, ∀ r < 8, readRow s k r ≠ none) : ∃ tiles, readTiles s n = some tiles :=
  gather_of_isSome fun k hk => by
    obtain ⟨rows, hrows⟩ : ∃ rows, readTile s k = some rows := gather_of_isSome fun r hr =>
      Option.isSome_iff_ne_none.2 (h k (List.mem_range.1 hk) r (List.mem_range.1 hr))
    rw [hrows]
    rfl

theorem exists_readDups {n : Nat} (h : ∀ k < n, readDup s k ≠ none) : ∃ dups, readDups s n = some dups :=
  gather_of_isSome fun k hk => by
    rw [Option.isSome_map]
    exact Option.isSome_iff_ne_none.2 (h k (List.mem_range.1 hk))

/-! ### The stops -/

theorem exec_pix_stops (v : Pixel) (hp : s.phase = .load) (hc : 8 ≤ s.c.toNat) (hr : s.r.toNat = 7)
    (hn : 1024 ≤ s.nt.toNat) : exec (.pix v) s = .fault (.noSuchElement .tgrow) := by
  rw [exec, execPix, phaseGate_ok (by rw [hp]; rfl)]
  simp [Nat.not_lt.2 hc, hr, Nat.not_lt.2 hn]

theorem exec_reduce_stops (hp : s.phase = .ready) (hN : 1024 < tileCount s) :
    exec .reduce s = .fault (.noSuchElement .imap) := by
  rw [exec, execReduce, phaseGate_ok (by rw [hp]; rfl)]
  exact if_pos hN

theorem exec_reduce_of_no_tiles (hp : s.phase = .ready) (hN : tileCount s ≤ 1024) (ht : readTiles s (tileCount s) = none) :
    exec .reduce s = .fault (.valuelessElement .tgrow) := by
  rw [exec, execReduce, phaseGate_ok (by rw [hp]; rfl)]
  simp [Nat.not_lt.2 hN, ht]

theorem exec_reduce_of_no_dups {tiles : List TileRows} (hp : s.phase = .ready) (hN : tileCount s ≤ 1024)
    (ht : readTiles s (tileCount s) = some tiles) (hd : readDups s (tileCount s) = none) :
    exec .reduce s = .fault (.valuelessElement .tgdup) := by
  rw [exec, execReduce, phaseGate_ok (by rw [hp]; rfl)]
  simp [Nat.not_lt.2 hN, ht, hd]

theorem exec_emitt_of_no_dups (hp : s.phase = .reduced) (hd : readDups s (tileCount s) = none) :
    exec .emitt s = .fault (.valuelessElement .tgdup) := by
  rw [exec, execEmitt, phaseGate_ok (by rw [hp]; rfl)]
  simp [hd]

theorem exec_emitt_of_no_tiles {dups : List Bool} (hp : s.phase = .reduced) (hd : readDups s (tileCount s) = some dups)
    (ht : readTiles s (tileCount s) = none) : exec .emitt s = .fault (.valuelessElement .tgrow) := by
  rw [exec, execEmitt, phaseGate_ok (by rw [hp]; rfl)]
  simp [hd, ht]

theorem exec_emitm_of_no_entries (hp : s.phase = .reduced) (he : readEntries s (tileCount s) = none) :
    exec .emitm s = .fault (.valuelessElement .imap) := by
  rw [exec, execEmitm, phaseGate_ok (by rw [hp]; rfl)]
  simp [he]

/-! ### The stops lack the invariant -/

/-- A state with the invariant completes every command (R35, R51), so one that stops lacks it. -/
theorem not_inv_of_exec_fault {i : Instr} {x : Fault} (he : exec i s = .fault x) : ¬ Inv s := by
  intro h
  obtain ⟨t, ht⟩ := h.exec_completes i
  rw [he] at ht
  cases ht

/-- Settles O49: in each state the command's own checks lead to the stop, which none with the invariant makes. -/
theorem stopsOutsideEveryRun : Obligations.StopsOutsideEveryRun := by
  unfold Obligations.StopsOutsideEveryRun
  have stop {s : State} {i : Instr} {x : Fault} (he : exec i s = .fault x) : exec i s = .fault x ∧ ¬ Inv s :=
    ⟨he, not_inv_of_exec_fault he⟩
  refine ⟨fun s v hp hc hr hn => stop (exec_pix_stops v hp hc hr hn), fun s hp hN => stop (exec_reduce_stops hp hN),
    fun s k r hk hr hrow => ⟨fun hp hN => ?_, fun hp hdups => ?_⟩, fun s k hk hdup => ⟨fun hp hN hrows => ?_, fun hp => ?_⟩,
    fun s k hk hentry hp => ?_⟩
  · exact stop (exec_reduce_of_no_tiles hp hN (readTiles_eq_none hk hr hrow))
  · obtain ⟨dups, hd⟩ := exists_readDups hdups
    exact stop (exec_emitt_of_no_tiles hp hd (readTiles_eq_none hk hr hrow))
  · obtain ⟨tiles, ht⟩ := exists_readTiles hrows
    exact stop (exec_reduce_of_no_dups hp hN ht (readDups_eq_none hk hdup))
  · exact stop (exec_emitt_of_no_dups hp (readDups_eq_none hk hdup))
  · exact stop (exec_emitm_of_no_entries hp (readEntries_eq_none hk hentry))

end Sys2Proof.Machine
end

section
/-! SUPPORT. Two states that agree up to contents without a value (10_state.md R35, R48; 70_reset_and_hazards.md R279) take every
transaction alike. One is the other with other memories, so only the valued elements have to be compared. -/

namespace Sys2Proof.Machine

variable {s t : State}

/-! ### Updates that keep the agreement -/

section
variable {f : State → State}

/-- An update that neither reads nor writes a memory, nor writes what decides which elements hold a value. -/
theorem SameValued.map (h : SameValued s t) (hf : ∀ g d m, f (withMemories s g d m) = withMemories (f s) g d m)
    (hnt : (f s).nt = s.nt) (hrd : (f s).rdone = s.rdone) (htw : (f s).tw = s.tw) (hth : (f s).th = s.th) :
    SameValued (f s) (f t) := by
  obtain ⟨g, d, m, rfl⟩ := h.exists_withMemories
  have hkeep : f s = withMemories (f s) s.tgrow s.tgdup s.imap := hf s.tgrow s.tgdup s.imap
  have hrow : ∀ k r, readRow (f s) k r = readRow s k r := readRow_congr hnt (congrArg State.tgrow hkeep :)
  have hdup : ∀ k, readDup (f s) k = readDup s k := readDup_congr hnt (congrArg State.tgdup hkeep :)
  have hentry : ∀ k, readEntry (f s) k = readEntry s k := readEntry_congr hrd htw hth (congrArg State.imap hkeep :)
  rw [hf g d m]
  refine sameValued_withMemories (fun k r hr => ?_) (fun k => ?_) fun k => ?_
  · rw [hrow, h.rows k r hr]
    exact readRow_congr (s := withMemories s g d m) (t := withMemories (f s) g d m) hnt.symm rfl k r
  · rw [hdup, h.dups]
    exact readDup_congr (s := withMemories s g d m) (t := withMemories (f s) g d m) hnt.symm rfl k
  · rw [hentry, h.entries]
    exact readEntry_congr (s := withMemories s g d m) (t := withMemories (f s) g d m) hrd.symm htw.symm hth.symm rfl k

/-- An update after which nothing is stored and no REDUCE is done, so that no content holds a value. -/
theorem SameValued.map_fresh (h : SameValued s t) (hf : ∀ g d m, f (withMemories s g d m) = withMemories (f s) g d m)
    (hnt : (f s).nt = 0) (hrd : (f s).rdone = false) : SameValued (f s) (f t) := by
  obtain ⟨g, d, m, rfl⟩ := h.exists_withMemories
  rw [hf g d m]
  obtain ⟨hrow, hdup, hentry⟩ := valueless_of_fresh hnt hrd
  obtain ⟨hrow', hdup', hentry'⟩ := valueless_of_fresh (s := withMemories (f s) g d m) hnt hrd
  exact sameValued_withMemories (fun k r _ => (hrow k r).trans (hrow' k r).symm) (fun k => (hdup k).trans (hdup' k).symm)
    fun k => (hentry k).trans (hentry' k).symm

end

theorem SameValued.after_raiseFault (h : SameValued s t) (code : ErrCode) : SameValued (raiseFault code s) (raiseFault code t) :=
  h.map (fun _ _ _ => rfl) rfl rfl rfl rfl

theorem SameValued.after_emitBeats (h : SameValued s t) (beats : List Beat) :
    SameValued (emitBeats beats s) (emitBeats beats t) :=
  h.map (fun _ _ _ => rfl) rfl rfl rfl rfl

theorem SameValued.after_illegalWord (h : SameValued s t) : SameValued (illegalWord s) (illegalWord t) := by
  by_cases hp : s.phase = .fault
  · rwa [illegalWord_of_fault hp, illegalWord_of_fault (h.phase ▸ hp)]
  · rw [illegalWord_of_phase_ne_fault hp, illegalWord_of_phase_ne_fault (h.phase ▸ hp)]
    exact h.after_raiseFault .illegal

/-- A commit stores the same accumulators as the same tile. -/
theorem sameValued_commitTile (h : SameValued s t) (hn : s.nt.toNat < 1024) : SameValued (commitTile s) (commitTile t) := by
  obtain ⟨g, d, m, rfl⟩ := h.exists_withMemories
  refine sameValued_withMemories (s := commitTile s) (fun k r hr => ?_) (fun k => ?_) h.entries
  · refine (readRow_commitTile hn hr).trans (Eq.trans ?_ (readRow_commitTile (s := withMemories s g d m) hn hr).symm)
    rw [h.rows k r hr]
  · refine (readDup_commitTile hn).trans (Eq.trans ?_ (readDup_commitTile (s := withMemories s g d m) hn).symm)
    rw [h.dups k]

/-- REDUCE writes the same flags and entries, and no entry from `N` on holds a value. -/
theorem sameValued_reduceCommit (h : SameValued s t) {wk : ReduceWork} (him : wk.im.length = tileCount s) :
    SameValued (reduceCommit (tileCount s) wk s) (reduceCommit (tileCount s) wk t) := by
  obtain ⟨g, d, m, rfl⟩ := h.exists_withMemories
  refine sameValued_withMemories (s := reduceCommit (tileCount s) wk s) h.rows (fun k => ?_) fun k => ?_
  · refine readDup_reduceCommit.trans (Eq.trans ?_ (readDup_reduceCommit (s := withMemories s g d m)).symm)
    rw [h.dups k]
  · by_cases hk : k < tileCount s
    · have hl : k < wk.im.length := him ▸ hk
      exact (readEntry_reduceCommit hk hl).trans (readEntry_reduceCommit (s := withMemories s g d m) hk hl).symm
    · have hk : tileCount s ≤ k := Nat.not_lt.1 hk
      exact (readEntry_of_valueless (s := reduceCommit (tileCount s) wk s) (.inr hk)).trans
        (readEntry_of_valueless (s := reduceCommit (tileCount s) wk (withMemories s g d m)) (.inr hk)).symm

/-! ### Commands -/

theorem outcomeRel_next {R : State → State → Prop} {a b : Host.Outcome State Fault Refusal} (ha : a = .next s) (hb : b = .next t)
    (h : R s t) : OutcomeRel R a b := by
  rw [ha, hb]
  exact h

theorem outcomeRel_fault {R : State → State → Prop} {a b : Host.Outcome State Fault Refusal} {x : Fault} (ha : a = .fault x)
    (hb : b = .fault x) : OutcomeRel R a b := by
  rw [ha, hb]
  rfl

theorem OutcomeRel.cases {R : State → State → Prop} {a b : Host.Outcome State Fault Refusal} (h : OutcomeRel R a b) :
    (∃ s t, a = .next s ∧ b = .next t ∧ R s t) ∨ (∃ x, a = .fault x ∧ b = .fault x) ∨
      ∃ x, a = .refused x ∧ b = .refused x :=
  match a, b, h with
  | .next s, .next t, h => .inl ⟨s, t, rfl, rfl, h⟩
  | .fault x, .fault _, h => .inr (.inl ⟨x, rfl, congrArg _ h.symm⟩)
  | .refused x, .refused _, h => .inr (.inr ⟨x, rfl, congrArg _ h.symm⟩)

section
variable (h : SameValued s t)
include h

theorem SameValued.readTiles_eq (n : Nat) : readTiles t n = readTiles s n :=
  readTiles_congr fun k _ r hr => (h.rows k r hr).symm

theorem SameValued.readDups_eq (n : Nat) : readDups t n = readDups s n := readDups_congr fun k _ => (h.dups k).symm

theorem SameValued.readEntries_eq (n : Nat) : readEntries t n = readEntries s n :=
  readEntries_congr fun k _ => (h.entries k).symm

theorem outcomeRel_start (th tw : Dim) : OutcomeRel SameValued (exec (.start th tw) s) (exec (.start th tw) t) := by
  by_cases hlegal : 1 ≤ tw.toNat ∧ tw.toNat ≤ 32 ∧ 1 ≤ th.toNat ∧ th.toNat ≤ 32
  · exact outcomeRel_next (exec_start_of_legal hlegal) (exec_start_of_legal hlegal)
      (h.map_fresh (f := fun s => latchGrid th tw (clearExport s)) (fun _ _ _ => rfl) rfl rfl)
  · exact outcomeRel_next (exec_start_of_not_legal hlegal) (exec_start_of_not_legal hlegal)
      (h.map_fresh (f := fun s => refuseGrid (clearExport s)) (fun _ _ _ => rfl) rfl rfl)

theorem outcomeRel_sel (hp : s.phase ≠ .fault) (x : TileIdx) : OutcomeRel SameValued (exec (.sel x) s) (exec (.sel x) t) :=
  outcomeRel_next (exec_sel hp) (exec_sel (h.phase ▸ hp))
    (h.map (f := fun s => { s with sel := x }) (fun _ _ _ => rfl) rfl rfl rfl rfl)

theorem outcomeRel_pix (hp : s.phase = .load) (v : Pixel) : OutcomeRel SameValued (exec (.pix v) s) (exec (.pix v) t) := by
  have htp : t.phase = .load := h.phase ▸ hp
  by_cases hc : s.c.toNat < 8
  · exact outcomeRel_next (exec_pix_column hp hc) (exec_pix_column htp (h.c ▸ hc))
      (h.map (f := fun s => { addPixel v s with c := s.c + 1 }) (fun _ _ _ => rfl) rfl rfl rfl rfl)
  by_cases hr : s.r.toNat < 7
  · exact outcomeRel_next (exec_pix_row hp hc hr) (exec_pix_row htp (h.c ▸ hc) (h.r ▸ hr))
      (h.map (f := fun s => { addPixel v s with c := 1, r := s.r + 1 }) (fun _ _ _ => rfl) rfl rfl rfl rfl)
  by_cases hn : s.nt.toNat < 1024
  · have hpixel : SameValued { addPixel v s with c := 1, r := 0 } { addPixel v t with c := 1, r := 0 } :=
      h.map (f := fun s => { addPixel v s with c := 1, r := 0 }) (fun _ _ _ => rfl) rfl rfl rfl rfl
    exact outcomeRel_next (exec_pix_commit hp hc hr hn) (exec_pix_commit htp (h.c ▸ hc) (h.r ▸ hr) (h.nt ▸ hn))
      (sameValued_commitTile hpixel hn)
  · have hc : 8 ≤ s.c.toNat := Nat.not_lt.1 hc
    have hr : s.r.toNat = 7 := by omega
    have hn : 1024 ≤ s.nt.toNat := Nat.not_lt.1 hn
    exact outcomeRel_fault (exec_pix_stops v hp hc hr hn) (exec_pix_stops v htp (h.c ▸ hc) (h.r ▸ hr) (h.nt ▸ hn))

theorem outcomeRel_reduce (hp : s.phase = .ready) : OutcomeRel SameValued (exec .reduce s) (exec .reduce t) := by
  have htp : t.phase = .ready := h.phase ▸ hp
  have hcount : tileCount t = tileCount s := h.tileCount.symm
  have htiles : readTiles t (tileCount t) = readTiles s (tileCount s) := by rw [hcount, h.readTiles_eq]
  have hdups : readDups t (tileCount t) = readDups s (tileCount s) := by rw [hcount, h.readDups_eq]
  by_cases hN : 1024 < tileCount s
  · exact outcomeRel_fault (exec_reduce_stops hp hN) (exec_reduce_stops htp (hcount ▸ hN))
  have hN : tileCount s ≤ 1024 := Nat.not_lt.1 hN
  cases ht : readTiles s (tileCount s) with
  | none =>
    exact outcomeRel_fault (exec_reduce_of_no_tiles hp hN ht) (exec_reduce_of_no_tiles htp (hcount ▸ hN) (htiles.trans ht))
  | some tiles =>
    cases hd : readDups s (tileCount s) with
    | none =>
      exact outcomeRel_fault (exec_reduce_of_no_dups hp hN ht hd)
        (exec_reduce_of_no_dups htp (hcount ▸ hN) (htiles.trans ht) (hdups.trans hd))
    | some dups =>
      refine outcomeRel_next (exec_reduce hp hN ht hd) (exec_reduce htp (hcount ▸ hN) (htiles.trans ht) (hdups.trans hd)) ?_
      rw [hcount]
      exact sameValued_reduceCommit h (reduceRun_im_length tiles (tileCount s) dups)

theorem outcomeRel_emitt (hp : s.phase = .reduced) : OutcomeRel SameValued (exec .emitt s) (exec .emitt t) := by
  have htp : t.phase = .reduced := h.phase ▸ hp
  have htiles : readTiles t (tileCount t) = readTiles s (tileCount s) := by rw [← h.tileCount, h.readTiles_eq]
  have hdups : readDups t (tileCount t) = readDups s (tileCount s) := by rw [← h.tileCount, h.readDups_eq]
  cases hd : readDups s (tileCount s) with
  | none => exact outcomeRel_fault (exec_emitt_of_no_dups hp hd) (exec_emitt_of_no_dups htp (hdups.trans hd))
  | some dups =>
    cases ht : readTiles s (tileCount s) with
    | none =>
      exact outcomeRel_fault (exec_emitt_of_no_tiles hp hd ht)
        (exec_emitt_of_no_tiles htp (hdups.trans hd) (htiles.trans ht))
    | some tiles =>
      refine outcomeRel_next (exec_emitt hp ht hd) (exec_emitt htp (htiles.trans ht) (hdups.trans hd)) ?_
      rw [h.unique]
      exact h.after_emitBeats _

theorem outcomeRel_emitm (hp : s.phase = .reduced) : OutcomeRel SameValued (exec .emitm s) (exec .emitm t) := by
  have htp : t.phase = .reduced := h.phase ▸ hp
  have hentries : readEntries t (tileCount t) = readEntries s (tileCount s) := by rw [← h.tileCount, h.readEntries_eq]
  cases he : readEntries s (tileCount s) with
  | none => exact outcomeRel_fault (exec_emitm_of_no_entries hp he) (exec_emitm_of_no_entries htp (hentries.trans he))
  | some es =>
    refine outcomeRel_next (exec_emitm hp he) (exec_emitm htp (hentries.trans he)) ?_
    rw [h.tileCount, h.tw]
    exact h.after_emitBeats _

/-- Every command reads valued elements alone, and writes what it computed from them. -/
theorem outcomeRel_exec (i : Instr) : OutcomeRel SameValued (exec i s) (exec i t) := by
  cases hv : phaseTable s.phase i with
  | raise code => exact outcomeRel_next (exec_of_raise hv) (exec_of_raise (h.phase ▸ hv)) (h.after_raiseFault code)
  | drop => exact outcomeRel_next (exec_of_drop hv) (exec_of_drop (h.phase ▸ hv)) h
  | ok =>
    cases i with
    | nop => exact outcomeRel_next (exec_nop s) (exec_nop t) h
    | start th tw => exact outcomeRel_start h th tw
    | pix v => exact outcomeRel_pix h (phase_of_pix_ok hv) v
    | reduce => exact outcomeRel_reduce h (phase_of_reduce_ok hv)
    | emitt => exact outcomeRel_emitt h (phase_of_emit_ok (.inl rfl) hv)
    | emitm => exact outcomeRel_emitm h (phase_of_emit_ok (.inr rfl) hv)
    | sel x => exact outcomeRel_sel h (phase_of_sel_ok hv) x

end

/-! ### The other transactions -/

/-- The registers, the reserved addresses and the accumulators show nothing of the memories. -/
theorem windowShown_withMemories {g : Memory 16} {d : Memory 1} {m : Memory 10} {a : WinAddr}
    (ha : a.toNat < 0x08 ∨ (0x0A ≤ a.toNat ∧ a.toNat ≤ 0x0F) ∨ 0x18 ≤ a.toNat) :
    windowShown (withMemories s g d m) a = windowShown s a := by
  have hidx : a.toNat ≠ 0x08 := by omega
  have hdup : a.toNat ≠ 0x09 := by omega
  by_cases hlow : a.toNat < 0x10
  · simp only [windowShown, hidx, hdup, hlow, if_true, if_false]
    rfl
  · have hrow : ¬ a.toNat < 0x18 := by omega
    simp only [windowShown, hidx, hdup, hlow, hrow, if_false]
    rfl

theorem step_resetDuring_of_fault {w : Word} {k : Nat} {rest : List Txn} {i : Instr} {x : Fault}
    (hport : s.port = .resetDuring w k :: rest) (hd : decode w = .ok i) (he : exec i { s with port := rest } = .fault x) :
    step s = .fault x := by
  simp [step, takeTxn, hport, hd, he]

section
variable (h : SameValued s t)
include h

/-- The window shows valued elements and registers alone (R42, R45). -/
theorem SameValued.windowShown_eq (a : WinAddr) : windowShown t a = windowShown s a := by
  by_cases hregister : a.toNat < 0x08 ∨ (0x0A ≤ a.toNat ∧ a.toNat ≤ 0x0F) ∨ 0x18 ≤ a.toNat
  · obtain ⟨g, d, m, rfl⟩ := h.exists_withMemories
    exact windowShown_withMemories hregister
  · have hsel : a.toNat = 0x08 ∨ a.toNat = 0x09 ∨ a.toNat = 0x10 + (a.toNat - 0x10) := by omega
    rcases hsel with h8 | h9 | hrow
    · rw [windowShown_selidx h8, windowShown_selidx h8, h.sel, h.entries]
    · rw [windowShown_seldup h9, windowShown_seldup h9, h.sel, h.dups]
    · have hr : a.toNat - 0x10 < 8 := by omega
      rw [windowShown_selrow hr hrow, windowShown_selrow hr hrow, h.sel, h.rows _ _ hr]

theorem SameValued.after_windowRead (a : WinAddr) : SameValued (windowRead a s) (windowRead a t) := by
  have hshown := h.windowShown_eq a
  unfold windowRead
  rw [hshown]
  cases windowShown s a with
  | value w => exact h.map (f := fun s => { s with reads := s.reads ++ [⟨a, w⟩] }) (fun _ _ _ => rfl) rfl rfl rfl rfl
  | unspec width =>
    exact h.map (f := fun s => { s with reads := s.reads ++ [⟨a, unspecField width s.draws⟩], draws := s.draws + 1 })
      (fun _ _ _ => rfl) rfl rfl rfl rfl

theorem SameValued.after_hardwareReset : SameValued (hardwareReset s) (hardwareReset t) :=
  h.map_fresh (fun _ _ _ => rfl) rfl rfl

/-- A reset during a word delivers first beats of the same stream. -/
theorem SameValued.after_abandonCommand {done done' : State} (hout : done.out = done'.out) (k : Nat) :
    SameValued (abandonCommand k done s) (abandonCommand k done' t) := by
  have hdone : abandonCommand k done' t = abandonCommand k done t := by rw [abandonCommand, abandonCommand, hout]
  rw [hdone]
  exact h.map_fresh (fun _ _ _ => rfl) rfl rfl

theorem SameValued.with_port (rest : List Txn) : SameValued { s with port := rest } { t with port := rest } :=
  h.map (f := fun s => { s with port := rest }) (fun _ _ _ => rfl) rfl rfl rfl rfl

/-- A reset during a word ends in the reset state, or stops where the word would have stopped. -/
theorem outcomeRel_resetDuring {w : Word} {k : Nat} {rest : List Txn} {i : Instr} (hport : s.port = .resetDuring w k :: rest)
    (hd : decode w = .ok i) : OutcomeRel SameValued (step s) (step t) := by
  have htport : t.port = .resetDuring w k :: rest := h.port ▸ hport
  have hrest := h.with_port rest
  rcases (outcomeRel_exec hrest i).cases with ⟨done, done', hs, ht, hdone⟩ | ⟨x, hs, ht⟩ | ⟨x, hs, -⟩
  · exact outcomeRel_next (step_resetDuring_of_exec hport hd hs) (step_resetDuring_of_exec htport hd ht)
      (hrest.after_abandonCommand hdone.out k)
  · exact outcomeRel_fault (step_resetDuring_of_fault hport hd hs) (step_resetDuring_of_fault htport hd ht)
  · exact absurd hs (exec_ne_refused i _ x)

end

/-- Settles O54: the two states have the same next transaction, and each kind of transaction keeps the agreement. -/
theorem staleContentsAreNeverObserved : Obligations.StaleContentsAreNeverObserved := by
  unfold Obligations.StaleContentsAreNeverObserved
  intro s t h
  cases hport : s.port with
  | nil => exact outcomeRel_next (step_empty hport) (step_empty (h.port ▸ hport)) h
  | cons txn rest =>
    have htport : t.port = txn :: rest := h.port ▸ hport
    have hrest := h.with_port rest
    cases txn with
    | command w =>
      cases hd : decode w with
      | ok i =>
        rw [step_command hport hd, step_command htport hd]
        exact outcomeRel_exec hrest i
      | error e => exact outcomeRel_next (step_illegal hport hd) (step_illegal htport hd) hrest.after_illegalWord
    | read a => exact outcomeRel_next (step_read hport) (step_read htport) (hrest.after_windowRead a)
    | hardReset => exact outcomeRel_next (step_hardReset hport) (step_hardReset htport) hrest.after_hardwareReset
    | resetDuring w k =>
      cases hd : decode w with
      | ok i => exact outcomeRel_resetDuring h hport hd
      | error e =>
        exact outcomeRel_next (step_resetDuring_of_illegal hport hd) (step_resetDuring_of_illegal htport hd)
          hrest.after_hardwareReset

end Sys2Proof.Machine
end
